-- ==== Sys2Proof/Word.lean ====
section
/-! DEFINITION. The engine's two word types: the 32-bit bus word (R30, R71) and the byte of key, tweak and block strings (R10). -/

namespace Sys2Proof

/-- A register, a bus datum or a digit slot: 32 bits (R30). -/
abbrev Word := BitVec 32

/-- A byte of a byte string (R10). -/
abbrev Byte := BitVec 8

end Sys2Proof
end

