-- ==== Sys2Proof/Syntax.lean ====
section
/-! DEFINITION. The commands: one constructor per row of spec/opcode_table.json (R101, R103). -/

namespace Sys2Proof

/-- A command, as decoded from the 32-bit word written to CMD (R100, R101).
No command has an operand field: all operands come from fixed registers (R104). -/
inductive Instr where
  /-- NOP, word 0x00000000 (R220). -/
  | nop
  /-- CONFIGURE, word 0x00000001 (R221). -/
  | configure
  /-- FF3_ENC, word 0x00000002 (R170). -/
  | ff3Enc
  /-- FF3_DEC, word 0x00000003 (R171). -/
  | ff3Dec
  /-- BPS_ENC, word 0x00000004 (R200). -/
  | bpsEnc
  /-- BPS_DEC, word 0x00000005 (R201). -/
  | bpsDec
  /-- WIPE, word 0x00000006 (R225). -/
  | wipe
  /-- ILLEGAL, any other word `w`, kept because CMD reads it back (R226, R34). -/
  | illegal (w : Word)
deriving DecidableEq, Repr

end Sys2Proof
end

