-- ==== Sys2Proof/WellFormed.lean ====
section
/-! DEFINITION. Which terms of `Instr` are commands: `illegal w` only for a word that no legal row matches (R107). -/

namespace Sys2Proof

/-- R107: the legal words are 0x00000000 to 0x00000006, every other word is illegal. -/
def Instr.wf : Instr → Bool
  | .nop => true
  | .configure => true
  | .ff3Enc => true
  | .ff3Dec => true
  | .bpsEnc => true
  | .bpsDec => true
  | .wipe => true
  | .illegal w => decide (6 < w.toNat)

end Sys2Proof
end

