-- ==== Sys2Proof/Decode.lean ====
section
/-! DEFINITION. The decode function of R103, total on every 32-bit word, and the encoder written from the opcode map of R101. -/

namespace Sys2Proof

/-- OP, bits [3:0] of a command word (R100). -/
def opField (w : Word) : BitVec 4 := w.extractLsb' 0 4

/-- RSV, bits [31:4] of a command word (R100, R102). -/
def rsvField (w : Word) : BitVec 28 := w.extractLsb' 4 28

/-- R103: the decode function. -/
def decode (w : Word) : Instr :=
  if w = 0 then .nop
  else if rsvField w ≠ 0 then .illegal w
  else match (opField w).toNat with
    | 1 => .configure
    | 2 => .ff3Enc
    | 3 => .ff3Dec
    | 4 => .bpsEnc
    | 5 => .bpsDec
    | 6 => .wipe
    | _ => .illegal w

/-- R101: the command word of each command; an illegal word is its own encoding (R226). -/
def encode : Instr → Word
  | .nop => 0x00000000
  | .configure => 0x00000001
  | .ff3Enc => 0x00000002
  | .ff3Dec => 0x00000003
  | .bpsEnc => 0x00000004
  | .bpsDec => 0x00000005
  | .wipe => 0x00000006
  | .illegal w => w

/-- Why bits are no command word. -/
inductive DecodeError where
  /-- More bits than the one 32-bit format has (R100, R108): there is no longer form. -/
  | tooLong (nbits : Nat)
  /-- A value that does not fit the stated number of bits. -/
  | notThatWide (nbits value : Nat)
deriving DecidableEq, Repr

/-- The decoder on any bits: `nbits` bits of value `w`, the bits above `nbits` zero (R100, R108; log 24: DEDUCED, safe). -/
def decodeBits (nbits w : Nat) : Except DecodeError Instr :=
  if 32 < nbits then .error (.tooLong nbits)
  else if 2 ^ nbits ≤ w then .error (.notThatWide nbits w)
  else .ok (decode (BitVec.ofNat 32 w))

/-- The decoder asked by the opcode table's bit numbers. -/
def decodeTableWord (nbits w : Nat) : Option Instr :=
  match decodeBits nbits w with
  | .ok i => some i
  | .error _ => none

end Sys2Proof
end

