-- ==== Sys2Proof/Config.lean ====
section
/-! DEFINITION. What an implementation fixes (R8, 92_eei_decisions.md "Open parameters") and the free values.
A name declared `opaque` has no body: nothing in Lean can evaluate it, so a statement that mentions it holds whatever it is. -/

namespace Sys2Proof

/-- The five block-cipher selections (R105, D10); all are implemented (R33). -/
inductive Cipher where
  | aes128 | aes192 | aes256 | tdes2 | tdes3
deriving DecidableEq, Repr, Inhabited

namespace Config

/-- DBUF_DEPTH of the instance that `State.reset` describes: the depth the spec's vectors use (R8, D5).
DESIGN CHOICE (log 2, unsafe for a statement about this one number): every statement about a state reads
the depth from the state's field `dbufDepth`, which may be any value 192..4096. -/
def dbufDepth : Nat := 1024

/-- Which 0x8000-byte slot of the bus the platform gave the engine (R8, D2; log 18: DESIGN CHOICE, safe). -/
opaque engineSlot : Nat

/-- ENGINE_BASE, "a multiple of 0x8000" (R8). -/
def engineBase : Nat := 0x8000 * engineSlot

/-- Free words: what a digit slot holds after INTERNAL (R246, I5; log 14: DESIGN CHOICE, safe). -/
opaque freeWord : Nat → Word

/-- Free numbers: act.r, act.minlen, act.maxlen, act.BS after a failed CONFIGURE (R224, I16; log 10: DESIGN CHOICE, safe). -/
opaque freeNat : Nat → Nat

/-- A free selection: act.cs after a failed CONFIGURE (R224, I16; log 10: DESIGN CHOICE, safe). -/
opaque freeCipher : Nat → Cipher

/-- A free flag: act.legacy after a failed CONFIGURE (R224, I16; log 10: DESIGN CHOICE, safe). -/
opaque freeBool : Nat → Bool

end Config
end Sys2Proof
end

