-- ==== Sys2Proof/Machine/State.lean ====
section
/-! DEFINITION. The machine's state as plain data: every register of the map (R30), the digit buffer (R50), the active
configuration (R60), the command snapshot (R62), and the model's own record of the two agents. Its value at reset (R270). -/

namespace Sys2Proof.Machine

/-- The digit buffer as (slot, word) pairs in one canonical form: slots strictly rising, no zero word listed;
an unlisted slot reads 0, its reset value (R50, R270; log 1: DESIGN CHOICE, safe). -/
abbrev Memory := List (Nat × Word)

/-- The canonical form of the digit buffer. -/
abbrev Memory.wf (m : Memory) : Prop :=
  m.Pairwise (fun p q => p.1 < q.1) ∧ ∀ p ∈ m, p.2 ≠ 0

/-- STATUS's stored fields (R37). CFG_OK is a view of `act.valid` (R40) and is not stored. -/
structure Status where
  busy : Bool
  done : Bool
  err : Bool
  fatal : Bool
  cmdOvr : Bool
  busyAcc : Bool
  errCode : BitVec 8
deriving DecidableEq, Repr

/-- CFGR's implemented fields (R45); its other bits are RAZ/WI. -/
structure Cfgr where
  cipher : BitVec 3
  legacy : Bool
  krev : Bool
deriving DecidableEq, Repr

/-- The active configuration `act` (R60). While `valid` is false no rule reads r, minlen, maxlen, cs, bs or legacy. -/
structure Act where
  valid : Bool
  r : Nat
  minlen : Nat
  maxlen : Nat
  cs : Cipher
  bs : Nat
  legacy : Bool
  key : List Byte
deriving DecidableEq, Repr

/-- The command snapshot `snap` (R62): the accepted word (op and rsv), the per-call operands, and `snap.cfg`. -/
structure Snap where
  word : Word
  n : Word
  tlen : BitVec 4
  tweak : List Byte
  radix : Word
  minlen : Word
  maxlen : Word
  cfgr : Cfgr
  key : List Byte
deriving DecidableEq, Repr

/-- The width of a host access: only `word` is permitted (R71, R72). -/
inductive Width where
  | byte | half | word
deriving DecidableEq, Repr

/-- One line of a host program in the bus notation of R109, its offset relative to ENGINE_BASE. -/
inductive HostOp where
  /-- `WR`: write `v` at offset `off`. -/
  | wr (width : Width) (off : Nat) (v : Word)
  /-- `RD`: read offset `off`. -/
  | rd (width : Width) (off : Nat)
  /-- `POLL NAME, mask, val`: repeat RD until the masked value equals `val`. -/
  | poll (off : Nat) (mask val : Word)
deriving DecidableEq, Repr

/-- Which agent takes the next step (R22, R82, R270). -/
inductive Turn where
  | host | engine | reset
deriving DecidableEq, Repr

/-- The error names of R242. -/
inductive ErrName where
  | badCmd | notConfigured
  | cfgNoCipher | cfgBadCipher | cfgRadix | cfgMinlen | cfgMinmax | cfgMaxlen
  | inBlockSize | inTweak | inLength | inDigit
  | internal
deriving DecidableEq, Repr

/-- The state of one engine instance (R23) and, below the line, the model's own fields. -/
structure State where
  /-- CAP.DEPTH (R33): DBUF_DEPTH of this instance; no step changes it (log 2: DESIGN CHOICE, unsafe). -/
  dbufDepth : Nat
  /-- CMD: the last accepted command word (R34). -/
  cmd : Word
  /-- STATUS (R37). -/
  status : Status
  /-- ERRINFO (R43). -/
  errInfo : Word
  /-- RADIX (R44). -/
  radix : Word
  /-- MINLEN (R44). -/
  minlen : Word
  /-- MAXLEN (R44). -/
  maxlen : Word
  /-- CFGR (R45). -/
  cfgr : Cfgr
  /-- MSGLEN (R46). -/
  msglen : Word
  /-- TWCTL.TLEN (R47); TWCTL's other bits are RAZ/WI. -/
  twctl : BitVec 4
  /-- TWEAK0 (R48). -/
  tweak0 : Word
  /-- TWEAK1 (R48). -/
  tweak1 : Word
  /-- KEY0..KEY7 (R49). -/
  keys : Vector Word 8
  /-- IRQ_STAT: bit 0 DONE_IRQ, bit 1 ERR_IRQ, bit 2 FATAL_IRQ (R51). -/
  irqStat : BitVec 3
  /-- IRQ_EN, the matching enables (R52). -/
  irqEn : BitVec 3
  /-- DIGIT[0..DBUF_DEPTH) (R50). -/
  digits : Memory
  /-- `act` (R60). -/
  act : Act
  /-- `snap` (R62), meaningful only while BUSY = 1. -/
  snap : Snap
  /-- Model: the host accesses still to arrive, in arrival order (R82, R109; log 6: DESIGN CHOICE, safe). -/
  host : List HostOp
  /-- Model: whose turn it is (R22, R82, R282; log 6: DESIGN CHOICE, safe). -/
  turns : List Turn
  /-- Model: what the host has read, (offset, data), newest first (R109; log 19: DESIGN CHOICE, safe). -/
  reads : List (Nat × Word)
  /-- Model: how many free values have been used (log 14: DESIGN CHOICE, safe). -/
  freeCount : Nat
deriving DecidableEq, Repr

/-- Why the machine stops. -/
inductive Fault where
  /-- A sub-word or misaligned access inside the engine's space (R72): a bus error to the host, no engine state changed.
  "A model treats a refused access as a host fault". Raised by the host's turn; safe (DEDUCED, log 15). -/
  | busError (width : Width) (off : Nat)
  /-- An access outside the engine's 0x8000 bytes, which belong to the platform (R79).
  Raised by the host's turn; safe (DESIGN CHOICE, log 16). -/
  | outsideEngine (off : Nat)
deriving DecidableEq, Repr

/-- Why an instruction has no meaning. -/
inductive Refusal where
  /-- The instruction of this mnemonic has no meaning in the model yet. Raised by no arm: every row is modelled; safe. -/
  | notModelled (mnemonic : String)
deriving DecidableEq, Repr

/-- A key of zero bytes (R60, R224, R225); 32 of them, the widest keylen of R105 (log 12: DESIGN CHOICE, unsafe). -/
def zeroKey : List Byte := List.replicate 32 0

/-- The state after reset (R270). `act`'s unspecified fields and `snap` hold values that log 9 and log 11 name (DESIGN CHOICE,
unsafe); the model's own fields are empty (log 6, log 7, log 14, log 19: DESIGN CHOICE, safe). -/
def State.reset : State where
  dbufDepth := Config.dbufDepth
  cmd := 0
  status := ⟨false, false, false, false, false, false, 0⟩
  errInfo := 0
  radix := 0
  minlen := 0
  maxlen := 0
  cfgr := ⟨0, false, false⟩
  msglen := 0
  twctl := 0
  tweak0 := 0
  tweak1 := 0
  keys := Vector.replicate 8 0
  irqStat := 0
  irqEn := 0
  digits := []
  act := ⟨false, 0, 0, 0, .aes128, 128, false, zeroKey⟩
  snap := ⟨0, 0, 0, List.replicate 8 0, 0, 0, 0, ⟨0, false, false⟩, List.replicate 32 0⟩
  host := []
  turns := []
  reads := []
  freeCount := 0

end Sys2Proof.Machine
end

