-- ==== Sys2Proof/Machine/Bytes.lean ====
section
/-! DEFINITION. Byte strings and integers (R10): big-endian packing of words, [x]^k, NUM, and bytewise xor. REVB is `List.reverse`. -/

namespace Sys2Proof.Machine

/-- The four bytes of a word, byte 0 in bits [31:24] (R76). -/
def wordBytes (w : Word) : List Byte :=
  [w.extractLsb' 24 8, w.extractLsb' 16 8, w.extractLsb' 8 8, w.extractLsb' 0 8]

/-- `[x]^k`: the k-byte big-endian encoding of x (R10). -/
def beBytes (k x : Nat) : List Byte :=
  (List.range k).map fun i => BitVec.ofNat 8 (x / 256 ^ (k - 1 - i))

/-- NUM(B): the integer whose big-endian byte encoding is B (R10). -/
def num (b : List Byte) : Nat :=
  b.foldl (fun acc x => acc * 256 + x.toNat) 0

/-- Bytewise exclusive or of two strings of one length (R172). -/
def xorBytes (a b : List Byte) : List Byte :=
  List.zipWith (· ^^^ ·) a b

/-- Byte j of a string. -/
def byteAt (b : List Byte) (j : Nat) : Byte := b.getD j 0

end Sys2Proof.Machine
end

