-- ==== Sys2Proof/Machine/Aes.lean ====
section
/-! DEFINITION. The AES forward cipher with 16-, 24- and 32-byte keys (R158). PRESUMED: the body is FIPS 197, which the spec names
and does not print (93_implementation_defined.md G1; log 3: PRESUMED, unsafe). Bytes and 32-bit words are plain numbers here. -/

namespace Sys2Proof.Machine

/-- The S-box, one row of sixteen bytes for each high nibble (FIPS 197). -/
def aesSboxRows : List Nat :=
  [0x637c777bf26b6fc53001672bfed7ab76, 0xca82c97dfa5947f0add4a2af9ca472c0,
   0xb7fd9326363ff7cc34a5e5f171d83115, 0x04c723c31896059a071280e2eb27b275,
   0x09832c1a1b6e5aa0523bd6b329e32f84, 0x53d100ed20fcb15b6acbbe394a4c58cf,
   0xd0efaafb434d338545f9027f503c9fa8, 0x51a3408f929d38f5bcb6da2110fff3d2]
  ++
  [0xcd0c13ec5f974417c4a77e3d645d1973, 0x60814fdc222a908846eeb814de5e0bdb,
   0xe0323a0a4906245cc2d3ac629195e479, 0xe7c8376d8dd54ea96c56f4ea657aae08,
   0xba78252e1ca6b4c6e8dd741f4bbd8b8a, 0x703eb5664803f60e613557b986c11d9e,
   0xe1f8981169d98e949b1e87e9ce5528df, 0x8ca1890dbfe6426841992d0fb054bb16]

/-- The S-box on one byte. -/
def aesSub (b : Nat) : Nat :=
  (aesSboxRows.getD (b / 16) 0) >>> (8 * (15 - b % 16)) % 256

/-- SubWord on a 32-bit word. -/
def aesSubWord (w : Nat) : Nat :=
  aesSub (w >>> 24 % 256) * 0x1000000 + aesSub (w >>> 16 % 256) * 0x10000 + aesSub (w >>> 8 % 256) * 0x100 + aesSub (w % 256)

/-- RotWord: the word rotated left by one byte. -/
def aesRotWord (w : Nat) : Nat := (w * 256) % 0x100000000 + w >>> 24

/-- Rcon[i], i = 1..10, in the top byte. -/
def aesRcon (i : Nat) : Nat :=
  ([0x01, 0x02, 0x04, 0x08, 0x10, 0x20, 0x40, 0x80, 0x1b, 0x36].getD (i - 1) 0) * 0x1000000

/-- One word of the key expansion; `ws` holds the words so far, newest first. -/
def aesExpandStep (nk : Nat) (ws : List Nat) (i : Nat) : List Nat :=
  let t := ws.getD 0 0
  let t' :=
    if i % nk = 0 then aesSubWord (aesRotWord t) ^^^ aesRcon (i / nk)
    else if 6 < nk ∧ i % nk = 4 then aesSubWord t
    else t
  (ws.getD (nk - 1) 0 ^^^ t') :: ws

/-- The words of a byte string of 4·k bytes, big-endian. -/
def aesWords (b : List Byte) (k : Nat) : List Nat :=
  (List.range k).map fun i => num ((b.drop (4 * i)).take 4)

/-- The key schedule: 4·(nr + 1) words. -/
def aesKeySchedule (nk nr : Nat) (key : List Byte) : List Nat :=
  ((List.range' nk (4 * (nr + 1) - nk)).foldl (aesExpandStep nk) (aesWords key nk).reverse).reverse

/-- The four bytes of a 32-bit word. -/
def aesWordBytes (w : Nat) : List Nat := [w >>> 24 % 256, w >>> 16 % 256, w >>> 8 % 256, w % 256]

/-- AddRoundKey with the words of round `i`. -/
def aesAddRoundKey (sched : List Nat) (i : Nat) (st : List Nat) : List Nat :=
  List.zipWith (· ^^^ ·) st (((sched.drop (4 * i)).take 4).flatMap aesWordBytes)

/-- ShiftRows: row r of the column-major state moves left by r. -/
def aesShiftRows (st : List Nat) : List Nat :=
  [0, 5, 10, 15, 4, 9, 14, 3, 8, 13, 2, 7, 12, 1, 6, 11].map fun j => st.getD j 0

/-- Multiplication by x in GF(2^8). -/
def aesXtime (b : Nat) : Nat := if b < 128 then b * 2 else (b * 2) ^^^ 0x11b

/-- MixColumns on one column. -/
def aesMixColumn (a b c d : Nat) : List Nat :=
  [aesXtime a ^^^ aesXtime b ^^^ b ^^^ c ^^^ d, a ^^^ aesXtime b ^^^ aesXtime c ^^^ c ^^^ d,
   a ^^^ b ^^^ aesXtime c ^^^ aesXtime d ^^^ d, aesXtime a ^^^ a ^^^ b ^^^ c ^^^ aesXtime d]

/-- MixColumns. -/
def aesMixColumns (st : List Nat) : List Nat :=
  [0, 4, 8, 12].flatMap fun j => aesMixColumn (st.getD j 0) (st.getD (j + 1) 0) (st.getD (j + 2) 0) (st.getD (j + 3) 0)

/-- A full round: SubBytes, ShiftRows, MixColumns, AddRoundKey. -/
def aesRound (sched : List Nat) (st : List Nat) (i : Nat) : List Nat :=
  aesAddRoundKey sched i (aesMixColumns (aesShiftRows (st.map aesSub)))

/-- The forward cipher with `nk` key words and `nr` rounds; the last round has no MixColumns. -/
def aesEncrypt (nk nr : Nat) (key blk : List Byte) : List Byte :=
  let sched := aesKeySchedule nk nr key
  let st := aesAddRoundKey sched 0 ((List.range 16).map fun j => (byteAt blk j).toNat)
  let st := (List.range' 1 (nr - 1)).foldl (aesRound sched) st
  (aesAddRoundKey sched nr (aesShiftRows (st.map aesSub))).map (BitVec.ofNat 8)

end Sys2Proof.Machine
end

