-- ==== Sys2Proof/Machine/Tdea.lean ====
section
/-! DEFINITION. One TDEA encryption, EDE, with the two keying options of R159. PRESUMED: the DES body is FIPS 46-3, which the spec
names and does not print (93_implementation_defined.md G2, G3; log 4: PRESUMED, unsafe). Blocks are plain numbers, bit 1 the most significant. -/

namespace Sys2Proof.Machine

/-- The bits of `x`, a number of `width` bits, picked by a table of positions counted from 1 at the most significant. -/
def desPermute (width : Nat) (table : List Nat) (x : Nat) : Nat :=
  table.foldl (fun acc p => acc * 2 + x >>> (width - p) % 2) 0

/-- The initial permutation IP. -/
def desIP : List Nat :=
  [58, 50, 42, 34, 26, 18, 10, 2, 60, 52, 44, 36, 28, 20, 12, 4, 62, 54, 46, 38, 30, 22, 14, 6, 64, 56, 48, 40, 32, 24, 16, 8] ++
  [57, 49, 41, 33, 25, 17, 9, 1, 59, 51, 43, 35, 27, 19, 11, 3, 61, 53, 45, 37, 29, 21, 13, 5, 63, 55, 47, 39, 31, 23, 15, 7]

/-- Its inverse, the final permutation. -/
def desFP : List Nat :=
  [40, 8, 48, 16, 56, 24, 64, 32, 39, 7, 47, 15, 55, 23, 63, 31, 38, 6, 46, 14, 54, 22, 62, 30, 37, 5, 45, 13, 53, 21, 61, 29] ++
  [36, 4, 44, 12, 52, 20, 60, 28, 35, 3, 43, 11, 51, 19, 59, 27, 34, 2, 42, 10, 50, 18, 58, 26, 33, 1, 41, 9, 49, 17, 57, 25]

/-- The expansion E. -/
def desE : List Nat :=
  [32, 1, 2, 3, 4, 5, 4, 5, 6, 7, 8, 9, 8, 9, 10, 11, 12, 13, 12, 13, 14, 15, 16, 17] ++
  [16, 17, 18, 19, 20, 21, 20, 21, 22, 23, 24, 25, 24, 25, 26, 27, 28, 29, 28, 29, 30, 31, 32, 1]

/-- The permutation P of the round function. -/
def desP : List Nat :=
  [16, 7, 20, 21, 29, 12, 28, 17, 1, 15, 23, 26, 5, 18, 31, 10, 2, 8, 24, 14, 32, 27, 3, 9, 19, 13, 30, 6, 22, 11, 4, 25]

/-- Permuted choice 1: the parity bits (8, 16, .., 64) are not picked (R159). -/
def desPC1 : List Nat :=
  [57, 49, 41, 33, 25, 17, 9, 1, 58, 50, 42, 34, 26, 18, 10, 2, 59, 51, 43, 35, 27, 19, 11, 3, 60, 52, 44, 36] ++
  [63, 55, 47, 39, 31, 23, 15, 7, 62, 54, 46, 38, 30, 22, 14, 6, 61, 53, 45, 37, 29, 21, 13, 5, 28, 20, 12, 4]

/-- Permuted choice 2. -/
def desPC2 : List Nat :=
  [14, 17, 11, 24, 1, 5, 3, 28, 15, 6, 21, 10, 23, 19, 12, 4, 26, 8, 16, 7, 27, 20, 13, 2] ++
  [41, 52, 31, 37, 47, 55, 30, 40, 51, 45, 33, 48, 44, 49, 39, 56, 34, 53, 46, 42, 50, 36, 29, 32]

/-- The left rotation of each round's key halves. -/
def desShifts : List Nat := [1, 1, 2, 2, 2, 2, 2, 2, 1, 2, 2, 2, 2, 2, 2, 1]

/-- The S-boxes S1 to S8: four rows of sixteen nibbles each. -/
def desSboxes : List (List Nat) :=
  [[0xE4D12FB83A6C5907, 0x0F74E2D1A6CB9538, 0x41E8D62BFC973A50, 0xFC8249175B3EA06D],
   [0xF18E6B34972DC05A, 0x3D47F28EC01A69B5, 0x0E7BA4D158C6932F, 0xD8A13F42B67C05E9],
   [0xA09E63F51DC7B428, 0xD709346A285ECBF1, 0xD6498F30B12C5AE7, 0x1AD069874FE3B52C],
   [0x7DE3069A1285BC4F, 0xD8B56F03472C1AE9, 0xA690CB7DF13E5284, 0x3F06A1D8945BC72E]]
  ++
  [[0x2C417AB6853FD0E9, 0xEB2C47D150FA3986, 0x421BAD78F9C5630E, 0xB8C71E2D6F09A453],
   [0xC1AF92680D34E75B, 0xAF427C9561DE0B38, 0x9EF528C3704A1DB6, 0x432C95FABE17608D],
   [0x4B2EF08D3C975A61, 0xD0B7491AE35C2F86, 0x14BDC37EAF680592, 0x6BD814A7950FE23C],
   [0xD2846FB1A93E50C7, 0x1FD8A374C56B0E92, 0x7B419CE206ADF358, 0x21E74A8DFC90356B]]

/-- S-box `k` on six bits: the outer two choose the row, the inner four the column. -/
def desS (k x : Nat) : Nat :=
  ((desSboxes.getD k []).getD (x / 32 * 2 + x % 2) 0) >>> (4 * (15 - x / 2 % 16)) % 16

/-- The round function f(R, K). -/
def desF (right subkey : Nat) : Nat :=
  let x := desPermute 32 desE right ^^^ subkey
  desPermute 32 desP ((List.range 8).foldl (fun acc k => acc * 16 + desS k (x >>> (6 * (7 - k)) % 64)) 0)

/-- A 28-bit half rotated left by `n`. -/
def desRotate (n x : Nat) : Nat := (x <<< n) % 0x10000000 + x >>> (28 - n)

/-- The sixteen round keys, in encryption order, from key halves `c` and `d`. -/
def desSubkeys : List Nat → Nat → Nat → List Nat
  | [], _, _ => []
  | n :: ns, c, d =>
    desPermute 56 desPC2 (desRotate n c * 0x10000000 + desRotate n d) :: desSubkeys ns (desRotate n c) (desRotate n d)

/-- The round keys of a 64-bit key. -/
def desKeySchedule (key : Nat) : List Nat :=
  let cd := desPermute 64 desPC1 key
  desSubkeys desShifts (cd >>> 28) (cd % 0x10000000)

/-- The rounds over the given round keys; the halves are swapped at the end. -/
def desRounds : List Nat → Nat → Nat → Nat
  | [], l, r => r * 0x100000000 + l
  | k :: ks, l, r => desRounds ks r (l ^^^ desF r k)

/-- DES over a key schedule; the reversed schedule deciphers. -/
def desCrypt (subkeys : List Nat) (blk : Nat) : Nat :=
  let x := desPermute 64 desIP blk
  desPermute 64 desFP (desRounds subkeys (x >>> 32) (x % 0x100000000))

/-- EDE: E_{K3}(D_{K2}(E_{K1}(x))) on an 8-byte block (R159). -/
def tdeaEncrypt (k1 k2 k3 blk : List Byte) : List Byte :=
  beBytes 8 (desCrypt (desKeySchedule (num k3)) (desCrypt (desKeySchedule (num k2)).reverse (desCrypt (desKeySchedule (num k1)) (num blk))))

end Sys2Proof.Machine
end

