-- ==== Sys2Proof/Machine/BlockCipher.lean ====
section
/-! DEFINITION. The cipher selections (R105) and `BlockEncrypt` (R8, R158, R159), the external primitive the engine calls. -/

namespace Sys2Proof.Machine

/-- CFGR.CIPHER decodes to a selection; 0 (NONE), 6 and 7 (reserved) to none (R105). -/
def cipherOf (sel : BitVec 3) : Option Cipher :=
  match sel.toNat with
  | 1 => some .aes128
  | 2 => some .aes192
  | 3 => some .aes256
  | 4 => some .tdes2
  | 5 => some .tdes3
  | _ => none

/-- BS, the block size in bits (R105, R158, R159). -/
def blockBits : Cipher → Nat
  | .aes128 | .aes192 | .aes256 => 128
  | .tdes2 | .tdes3 => 64

/-- keylen in bytes (R105, R156). -/
def keyLen : Cipher → Nat
  | .aes128 | .tdes2 => 16
  | .aes192 | .tdes3 => 24
  | .aes256 => 32

/-- `BlockEncrypt(cs, key, blk)`: one raw encryption of a block (R8, R158, R159). The datapath takes the primitive as an argument (R3);
the machine gives it this one. Only the encryption direction exists (R161). On a key or a block of another
length than the selection's, which no run from a good state reaches, the value is the model's own (log 5: DESIGN CHOICE, unsafe). -/
def blockEncrypt (cs : Cipher) (key blk : List Byte) : List Byte :=
  match cs with
  | .aes128 => aesEncrypt 4 10 key blk
  | .aes192 => aesEncrypt 6 12 key blk
  | .aes256 => aesEncrypt 8 14 key blk
  | .tdes2 => tdeaEncrypt (key.take 8) ((key.drop 8).take 8) (key.take 8) blk
  | .tdes3 => tdeaEncrypt (key.take 8) ((key.drop 8).take 8) ((key.drop 16).take 8) blk

/-- The wrapper CIPH(P) = REVB(E(REVB(P))) of R157, over a primitive `E` already keyed. -/
def ciph (E : List Byte → List Byte) (p : List Byte) : List Byte :=
  (E p.reverse).reverse

end Sys2Proof.Machine
end

