-- ==== Sys2Proof/Machine/Datapath.lean ====
section
/-! DEFINITION. Radix arithmetic (41_datapath.md): digit-string conversions, half-lengths, the reducer and the round combination,
the configuration bounds, and digit-wise arithmetic. All integers are exact naturals (R9, R132). -/

namespace Sys2Proof.Machine

/-- NumRev (R120): fold from the last index to the first, acc <- acc·r + X[j]. -/
def numRev (r : Nat) (x : List Nat) : Nat := x.foldr (fun d acc => acc * r + d) 0

/-- StrRev (R121): Y[j] = ⌊c / r^j⌋ mod r for j < m. -/
def strRev (r m c : Nat) : List Nat := (List.range m).map fun j => c / r ^ j % r

/-- u = ⌈n/2⌉ (R123). -/
def halfU (n : Nat) : Nat := (n + 1) / 2

/-- v = n − u (R123). -/
def halfV (n : Nat) : Nat := n - halfU n

/-- reduce(S, D) = NUM(S) mod D (R126). -/
def reduce (s : List Byte) (d : Nat) : Nat := num s % d

/-- The encrypt combination (R127). -/
def combineEnc (a y d : Nat) : Nat := (a + y) % d

/-- The decrypt combination (R127). -/
def combineDec (b y d : Nat) : Nat := (b + d - y) % d

/-- LIMIT(r, BS) = 2 · max k with r^k ≤ 2^(BS−32) (R128). For r ≥ 2 the largest such k is at most BS − 32. -/
def limit (r bs : Nat) : Nat := 2 * Nat.findGreatest (fun k => r ^ k ≤ 2 ^ (bs - 32)) (bs - 32)

/-- MINOK (R129): minlen ≥ 2 and r^minlen ≥ 10^6. The exponent is cut at 20, which decides the same
(2^20 ≥ 10^6) and keeps the power small for every register value (log 22: DEDUCED, safe). -/
def minok (r minlen : Nat) : Bool := decide (2 ≤ minlen) && decide (10 ^ 6 ≤ r ^ min minlen 20)

/-- addr(a, b) (R130). -/
def addDigit (r a b : Nat) : Nat := (a + b) % r

/-- subr(a, b) (R130). -/
def subDigit (r a b : Nat) : Nat := (a + r - b) % r

/-- X ⊕_r Y (R130). -/
def addDigits (r : Nat) (x y : List Nat) : List Nat := List.zipWith (addDigit r) x y

/-- X ⊖_r Y (R130). -/
def subDigits (r : Nat) (x y : List Nat) : List Nat := List.zipWith (subDigit r) x y

/-- X[a..a+len) (R10). -/
def slice (x : List Nat) (a len : Nat) : List Nat := (x.drop a).take len

/-- X with Z written at X[a..a+|Z|). -/
def splice (x : List Nat) (a : Nat) (z : List Nat) : List Nat := x.take a ++ z ++ x.drop (a + z.length)

end Sys2Proof.Machine
end

