-- ==== Sys2Proof/Machine/Tweak.lean ====
section
/-! DEFINITION. The tweak splitter (R152, R153) and the BPS perturbation (R203, R213). -/

namespace Sys2Proof.Machine

/-- The 7-byte split (R152): (T_L, T_R). -/
def split7 (t : List Byte) : List Byte × List Byte :=
  ([byteAt t 0, byteAt t 1, byteAt t 2, byteAt t 3 &&& 0xF0], [byteAt t 4, byteAt t 5, byteAt t 6, byteAt t 3 <<< 4])

/-- The 8-byte split (R153): (T_L, T_R). -/
def split8 (t : List Byte) : List Byte × List Byte := (t.take 4, (t.drop 4).take 4)

/-- The split chosen by the tweak's length (R178, R184). -/
def splitTweak (t : List Byte) : List Byte × List Byte := if t.length = 7 then split7 t else split8 t

/-- perturb(T8, i) (R203): bytes 1 and 5 xored with i mod 256. -/
def perturb (t8 : List Byte) (i : Nat) : List Byte :=
  let t := t8.set 1 (byteAt t8 1 ^^^ BitVec.ofNat 8 (i % 256))
  t.set 5 (byteAt t 5 ^^^ BitVec.ofNat 8 (i % 256))

end Sys2Proof.Machine
end

