-- ==== Sys2Proof/Machine/Cipher.lean ====
section
/-! DEFINITION. The whole ciphers as functions of a keyed primitive `E` (R3): the Feistel rounds and FeistelEnc, FeistelDec
(R172 to R179), and BPS block chaining (R202 to R209). -/

namespace Sys2Proof.Machine

/-- The round input block P (R172, R131). -/
def roundBlock (bs : Nat) (w : List Byte) (i x : Nat) : List Byte :=
  xorBytes w (beBytes 4 i) ++ beBytes (bs / 8 - 4) x

/-- The round value y (R173, R174): NUM(CIPH(P)) mod r^m, P from the other half `side`. -/
def roundValue (E : List Byte → List Byte) (bs r m : Nat) (w : List Byte) (i : Nat) (side : List Nat) : Nat :=
  reduce (ciph E (roundBlock bs w i (numRev r side))) (r ^ m)

/-- m of round i (R175). -/
def roundM (n i : Nat) : Nat := if i % 2 = 0 then halfU n else halfV n

/-- W of round i (R175): T_R in even rounds, T_L in odd ones. -/
def roundW (t : List Byte × List Byte) (i : Nat) : List Byte := if i % 2 = 0 then t.2 else t.1

/-- One encrypt round (R176) on the halves (A, B). -/
def encRound (E : List Byte → List Byte) (bs r n : Nat) (t : List Byte × List Byte) (ab : List Nat × List Nat) (i : Nat) :
    List Nat × List Nat :=
  let m := roundM n i
  let y := roundValue E bs r m (roundW t i) i ab.2
  (ab.2, strRev r m (combineEnc (numRev r ab.1) y (r ^ m)))

/-- One decrypt round (R177) on the halves (A, B). -/
def decRound (E : List Byte → List Byte) (bs r n : Nat) (t : List Byte × List Byte) (ab : List Nat × List Nat) (i : Nat) :
    List Nat × List Nat :=
  let m := roundM n i
  let y := roundValue E bs r m (roundW t i) i ab.1
  (strRev r m (combineDec (numRev r ab.2) y (r ^ m)), ab.1)

/-- FeistelEnc (R178): rounds 0 to 7. -/
def feistelEnc (E : List Byte → List Byte) (bs r : Nat) (t : List Byte) (x : List Nat) : List Nat :=
  let n := x.length
  let ab := [0, 1, 2, 3, 4, 5, 6, 7].foldl (encRound E bs r n (splitTweak t)) (x.take (halfU n), x.drop (halfU n))
  ab.1 ++ ab.2

/-- FeistelDec (R179): rounds 7 to 0. -/
def feistelDec (E : List Byte → List Byte) (bs r : Nat) (t : List Byte) (x : List Nat) : List Nat :=
  let n := x.length
  let ab := [7, 6, 5, 4, 3, 2, 1, 0].foldl (decRound E bs r n (splitTweak t)) (x.take (halfU n), x.drop (halfU n))
  ab.1 ++ ab.2

/-- Block i of BpsEnc (R205): add the previous cipher block, encrypt under the perturbed tweak, write back. -/
def bpsEncBlock (E : List Byte → List Byte) (bs r M : Nat) (t8 : List Byte) (y : List Nat) (i : Nat) : List Nat :=
  let tmp := slice y (i * M) M
  let tmp := if 0 < i then addDigits r tmp (slice y (i * M - M) M) else tmp
  splice y (i * M) (feistelEnc E bs r (perturb t8 i) tmp)

/-- The tail's pre-mix (R206): Y[idx] <- (Y[idx] + Y[idx − M]) mod r for the last `rest` digits. -/
def bpsPreMix (r M rest : Nat) (y : List Nat) : List Nat :=
  (List.range' (y.length - rest) rest).foldl (fun y idx => y.set idx (addDigit r (y.getD idx 0) (y.getD (idx - M) 0))) y

/-- The tail of BpsEnc (R206), over the last M digits. -/
def bpsEncTail (E : List Byte → List Byte) (bs r M : Nat) (t8 : List Byte) (y : List Nat) : List Nat :=
  let z := bpsPreMix r M (y.length % M) y
  splice z (y.length - M) (feistelEnc E bs r (perturb t8 (y.length / M)) (slice z (y.length - M) M))

/-- The tail's un-mix (R208): tmp[M − idx] <- (tmp[M − idx] − Y[L − idx − M]) mod r for idx = 1..rest. -/
def bpsUnMix (r M rest : Nat) (y tmp : List Nat) : List Nat :=
  (List.range' 1 rest).foldl
    (fun tmp idx => tmp.set (M - idx) (subDigit r (tmp.getD (M - idx) 0) (y.getD (y.length - idx - M) 0))) tmp

/-- The tail of BpsDec (R208). -/
def bpsDecTail (E : List Byte → List Byte) (bs r M : Nat) (t8 : List Byte) (y : List Nat) : List Nat :=
  let tmp := feistelDec E bs r (perturb t8 (y.length / M)) (slice y (y.length - M) M)
  splice y (y.length - M) (bpsUnMix r M (y.length % M) y tmp)

/-- Block i of BpsDec (R209): decrypt, THEN subtract the previous cipher block (90_conflicts.md C6). -/
def bpsDecBlock (E : List Byte → List Byte) (bs r M : Nat) (t8 : List Byte) (y : List Nat) (i : Nat) : List Nat :=
  let tmp := feistelDec E bs r (perturb t8 i) (slice y (i * M) M)
  splice y (i * M) (if 0 < i then subDigits r tmp (slice y (i * M - M) M) else tmp)

/-- BpsEnc (R202, R204 to R206) with block length M. -/
def bpsEncrypt (E : List Byte → List Byte) (bs r M : Nat) (t8 : List Byte) (x : List Nat) : List Nat :=
  if x.length ≤ M then feistelEnc E bs r t8 x
  else
    let y := (List.range (x.length / M)).foldl (bpsEncBlock E bs r M t8) x
    if 0 < x.length % M then bpsEncTail E bs r M t8 y else y

/-- BpsDec (R202, R207 to R209) with block length M. -/
def bpsDecrypt (E : List Byte → List Byte) (bs r M : Nat) (t8 : List Byte) (x : List Nat) : List Nat :=
  if x.length ≤ M then feistelDec E bs r t8 x
  else
    let y := if 0 < x.length % M then bpsDecTail E bs r M t8 x else x
    (List.range (x.length / M)).reverse.foldl (bpsDecBlock E bs r M t8) y

end Sys2Proof.Machine
end

