-- ==== Sys2Proof/Machine/Flags.lean ====
section
/-! DEFINITION. Every flag computation: error codes (R242), the STATUS word (R37, R40), STATUS and IRQ_STAT at acceptance, success,
error and internal error (R36, R240, R241, R246), and the `irq` line (R248). -/

namespace Sys2Proof.Machine

/-- code(E) (R242). -/
def ErrName.code : ErrName → BitVec 8
  | .badCmd => 0x01
  | .notConfigured => 0x02
  | .cfgNoCipher => 0x10
  | .cfgBadCipher => 0x11
  | .cfgRadix => 0x12
  | .cfgMinlen => 0x13
  | .cfgMinmax => 0x14
  | .cfgMaxlen => 0x15
  | .inBlockSize => 0x20
  | .inTweak => 0x21
  | .inLength => 0x22
  | .inDigit => 0x23
  | .internal => 0xF0

/-- The STATUS word as read (R37); CFG_OK is `act.valid` (R40). -/
def State.statusWord (s : State) : Word :=
  (0 : BitVec 16) ++ s.status.errCode ++ (0 : BitVec 1) ++ BitVec.ofBool s.status.busyAcc ++ BitVec.ofBool s.status.cmdOvr
    ++ BitVec.ofBool s.status.fatal ++ BitVec.ofBool s.act.valid ++ BitVec.ofBool s.status.err ++ BitVec.ofBool s.status.done
    ++ BitVec.ofBool s.status.busy

/-- STATUS at the acceptance of a command other than NOP (R36). -/
def Status.onAccept (t : Status) : Status :=
  { t with busy := true, done := false, err := false, errCode := 0, cmdOvr := false, busyAcc := false }

/-- STATUS at a successful completion (R240). -/
def Status.onOk (t : Status) : Status :=
  { t with busy := false, done := true, err := false, errCode := 0 }

/-- STATUS at an error completion (R241). -/
def Status.onError (e : ErrName) (t : Status) : Status :=
  { t with busy := false, done := false, err := true, errCode := e.code }

/-- STATUS at an internal error (R246): BUSY stays as it is. -/
def Status.onInternal (t : Status) : Status :=
  { t with fatal := true, done := false, err := true, errCode := ErrName.internal.code }

/-- DONE_IRQ, bit 0 of IRQ_STAT (R51). -/
def doneIrq : BitVec 3 := 0b001

/-- ERR_IRQ, bit 1 of IRQ_STAT (R51). -/
def errIrq : BitVec 3 := 0b010

/-- FATAL_IRQ, bit 2 of IRQ_STAT (R51). -/
def fatalIrq : BitVec 3 := 0b100

/-- The level-sensitive interrupt output (R248). -/
def State.irq (s : State) : Bool := s.irqStat &&& s.irqEn != 0

end Sys2Proof.Machine
end

