-- ==== Sys2Proof/Machine/Ops.lean ====
section
/-! DEFINITION. The named operations: reading and writing the digit buffer in its canonical form, ending a command
(successfully, with an error, with an internal error), and the reset transition. -/

namespace Sys2Proof.Machine

/-- The word in slot `j`; an unlisted slot holds 0 (R50, R270). -/
def Memory.read : Memory → Nat → Word
  | [], _ => 0
  | (k, x) :: m, j => if k = j then x else Memory.read m j

/-- The buffer with `v` in slot `j`, in canonical form. -/
def Memory.write : Memory → Nat → Word → Memory
  | [], j, v => if v = 0 then [] else [(j, v)]
  | (k, x) :: m, j, v =>
    if k < j then (k, x) :: Memory.write m j v
    else if k = j then (if v = 0 then m else (j, v) :: m)
    else if v = 0 then (k, x) :: m else (j, v) :: (k, x) :: m

/-- The buffer with the given words in slots `j`, `j + 1`, and so on. -/
def Memory.writeFrom (m : Memory) (j : Nat) : List Word → Memory
  | [] => m
  | v :: vs => Memory.writeFrom (m.write j v) (j + 1) vs

/-- `complete_ok()` (R240). It keeps `snap`, which has no meaning once BUSY = 0 (log 25: DESIGN CHOICE, unsafe). -/
def completeOk (s : State) : State :=
  { s with status := s.status.onOk, errInfo := 0, irqStat := s.irqStat ||| doneIrq }

/-- `raise E(info)` (R241): how every error but INTERNAL is taken. There is no saved state to return to (R245, R250). -/
def raiseError (e : ErrName) (info : Nat) (s : State) : State :=
  { s with status := s.status.onError e, errInfo := BitVec.ofNat 32 info, irqStat := s.irqStat ||| errIrq }

/-- An INTERNAL completion over the `n` digits of the message (R246): FATAL is set, BUSY stays, DIGIT[0..n) holds free
values, `act` is unchanged (log 14: DESIGN CHOICE, safe). -/
def internalError (n : Nat) (s : State) : State :=
  { s with
    status := s.status.onInternal
    errInfo := 0
    irqStat := s.irqStat ||| errIrq ||| fatalIrq
    digits := s.digits.writeFrom 0 ((List.range n).map fun j => Config.freeWord (s.freeCount + j))
    freeCount := s.freeCount + n }

/-- The transition `reset` (R270, R271): every piece of engine state takes its reset value; the instance's depth and the model's
own fields are not engine state (log 23: DESIGN CHOICE, safe). -/
def resetEngine (s : State) : State :=
  { State.reset with
    dbufDepth := s.dbufDepth, host := s.host, turns := s.turns, reads := s.reads, freeCount := s.freeCount }

end Sys2Proof.Machine
end

