-- ==== Sys2Proof/Machine/Operands.lean ====
section
/-! DEFINITION. Operand assembly (R104): the snapshot sampled at acceptance (R62), the tweak byte string and its validity
(R150, R155, R211), the key as loaded (R156), and the message window of the digit buffer (R50). -/

namespace Sys2Proof.Machine

/-- Digit slot j (R11). -/
def State.digit (s : State) (j : Nat) : Word := s.digits.read j

/-- The digits DIGIT[0..n) as integers, the message X (R50, R77). -/
def State.message (s : State) (n : Nat) : List Nat :=
  (List.range n).map fun j => (s.digit j).toNat

/-- DIGIT[0..|Y|) <- Y; every other slot is unchanged (R180). -/
def State.storeMessage (s : State) (y : List Nat) : State :=
  { s with digits := s.digits.writeFrom 0 (y.map (BitVec.ofNat 32)) }

/-- The tweak bytes T[0..8) of TWEAK0 and TWEAK1 (R48). -/
def tweakBytes (t0 t1 : Word) : List Byte := wordBytes t0 ++ wordBytes t1

/-- The key bytes K[0..32) of KEY0..KEY7 (R49). -/
def keyBytes (keys : Vector Word 8) : List Byte := keys.toList.flatMap wordBytes

/-- `sample()` for the accepted word `w` (R62). -/
def sample (w : Word) (s : State) : Snap where
  word := w
  n := s.msglen
  tlen := s.twctl
  tweak := tweakBytes s.tweak0 s.tweak1
  radix := s.radix
  minlen := s.minlen
  maxlen := s.maxlen
  cfgr := s.cfgr
  key := keyBytes s.keys

/-- `snap.op` (R62). -/
def Snap.op (p : Snap) : BitVec 4 := p.word.extractLsb' 0 4

/-- `snap.rsv` (R62). -/
def Snap.rsv (p : Snap) : BitVec 28 := p.word.extractLsb' 4 28

/-- R150: the tweak byte string; none for an invalid length. A null tweak is 8 zero bytes for BPS, else 7 (R151). -/
def tweak (tlen : BitVec 4) (t8 : List Byte) (forBPS : Bool) : Option (List Byte) :=
  match tlen.toNat with
  | 0 => some (List.replicate (if forBPS then 8 else 7) 0)
  | 7 => some (t8.take 7)
  | 8 => some (t8.take 8)
  | _ => none

/-- R155: the tweak lengths FF3_ENC and FF3_DEC accept. -/
def ff3TweakOk (tlen : BitVec 4) (legacy : Bool) : Bool :=
  tlen == 0 || tlen == 7 || (tlen == 8 && legacy)

/-- R211: the tweak lengths BPS_ENC and BPS_DEC accept, whatever act.legacy is. -/
def bpsTweakOk (tlen : BitVec 4) : Bool := tlen == 0 || tlen == 8

/-- R156: the key as loaded into the primitive. -/
def loadKey (cs : Cipher) (krev : Bool) (k : List Byte) : List Byte :=
  if krev then (k.take (keyLen cs)).reverse else k.take (keyLen cs)

end Sys2Proof.Machine
end

