-- ==== Sys2Proof/Machine/Feistel.lean ====
section
/-! DEFINITION. The data commands' shared completion (check, compute, write back, end) and FF3_ENC, FF3_DEC (R170, R171, R182). -/

namespace Sys2Proof.Machine

/-- The primitive under the active configuration: E_K of R157. -/
def State.primitive (s : State) : List Byte → List Byte := blockEncrypt s.act.cs s.act.key

/-- The lowest j < n with DIGIT[j] ≥ act.r (R182, R211). -/
def firstBadDigit (s : State) (n : Nat) : Option Nat :=
  (List.range n).find? fun j => decide (s.act.r ≤ (s.digit j).toNat)

/-- What the document's InternalError guards (R246): no overflow in a Feistel call of `len` digits (r^u ≤ 2^(BS−32), R132), and
the result as long as the message (the post-condition on the half lengths). -/
def datapathOk (s : State) (len : Nat) (x y : List Nat) : Bool :=
  decide (s.act.r ^ halfU len ≤ 2 ^ (s.act.bs - 32)) && y.length == x.length

/-- A data command's completion step: the checks first (R245), then the result written in place over DIGIT[0..snap.n) (R180). `len` is
the length of its longest Feistel call. -/
def runData (check : Option (ErrName × Nat)) (len : Nat) (cipher : List Nat → List Nat) (s : State) :
    Host.Outcome State Fault Refusal :=
  match check with
  | some (e, info) => .next (raiseError e info s)
  | none =>
    let x := s.message s.snap.n.toNat
    let y := cipher x
    if datapathOk s len x y then .next (completeOk (s.storeMessage y)) else .next (internalError s.snap.n.toNat s)

/-- ff3_check (R182): the first failing check, with its ERRINFO. -/
def ff3Check (s : State) : Option (ErrName × Nat) :=
  if s.act.valid = false then some (.notConfigured, 0)
  else if s.act.bs ≠ 128 then some (.inBlockSize, 0)
  else if ff3TweakOk s.snap.tlen s.act.legacy = false then some (.inTweak, 0)
  else if s.snap.n.toNat < s.act.minlen ∨ s.act.maxlen < s.snap.n.toNat then some (.inLength, 0)
  else (firstBadDigit s s.snap.n.toNat).map fun j => (.inDigit, j)

/-- The tweak of an FF3 command (R150, forBPS = false). -/
def State.ff3Tweak (s : State) : List Byte := (tweak s.snap.tlen s.snap.tweak false).getD []

/-- FF3_ENC (R170). -/
def execFf3Enc (s : State) : Host.Outcome State Fault Refusal :=
  runData (ff3Check s) s.snap.n.toNat (feistelEnc s.primitive s.act.bs s.act.r s.ff3Tweak) s

/-- FF3_DEC (R171). -/
def execFf3Dec (s : State) : Host.Outcome State Fault Refusal :=
  runData (ff3Check s) s.snap.n.toNat (feistelDec s.primitive s.act.bs s.act.r s.ff3Tweak) s

end Sys2Proof.Machine
end

