-- ==== Sys2Proof/Machine/Bps.lean ====
section
/-! DEFINITION. BPS_ENC and BPS_DEC (R200, R201, R211). -/

namespace Sys2Proof.Machine

/-- bps_check (R211): the first failing check, with its ERRINFO. Both block sizes are accepted. -/
def bpsCheck (s : State) : Option (ErrName × Nat) :=
  if s.act.valid = false then some (.notConfigured, 0)
  else if bpsTweakOk s.snap.tlen = false then some (.inTweak, 0)
  else if s.snap.n.toNat < s.act.minlen ∨ s.dbufDepth < s.snap.n.toNat then some (.inLength, 0)
  else (firstBadDigit s s.snap.n.toNat).map fun j => (.inDigit, j)

/-- The 8-byte tweak of a BPS command (R150, forBPS = true); a working copy, TWEAK0 and TWEAK1 are never written (R210). -/
def State.bpsTweak (s : State) : List Byte := (tweak s.snap.tlen s.snap.tweak true).getD []

/-- The longest Feistel call of a BPS command: the message if it fits one block, else a block of M digits (R202). -/
def State.bpsCallLen (s : State) : Nat := min s.snap.n.toNat s.act.maxlen

/-- BPS_ENC (R200). -/
def execBpsEnc (s : State) : Host.Outcome State Fault Refusal :=
  runData (bpsCheck s) s.bpsCallLen (bpsEncrypt s.primitive s.act.bs s.act.r s.act.maxlen s.bpsTweak) s

/-- BPS_DEC (R201). -/
def execBpsDec (s : State) : Host.Outcome State Fault Refusal :=
  runData (bpsCheck s) s.bpsCallLen (bpsDecrypt s.primitive s.act.bs s.act.r s.act.maxlen s.bpsTweak) s

end Sys2Proof.Machine
end

