-- ==== Sys2Proof/Machine/Control.lean ====
section
/-! DEFINITION. The control commands NOP, CONFIGURE, WIPE and the illegal words (R220 to R226). -/

namespace Sys2Proof.Machine

/-- NOP (R220): the only effect is CMD <- 0; it has no completion step. -/
def execNop (s : State) : Host.Outcome State Fault Refusal := .next { s with cmd := 0 }

/-- cfg_check (R222) on snap.cfg: the first failure, or the selection CIPHER names. -/
def cfgCheck (p : Snap) : Except ErrName Cipher :=
  if p.cfgr.cipher = 0 then .error .cfgNoCipher
  else match cipherOf p.cfgr.cipher with
    | none => .error .cfgBadCipher
    | some cs =>
      if p.radix.toNat < 2 ∨ 65536 < p.radix.toNat then .error .cfgRadix
      else if minok p.radix.toNat p.minlen.toNat = false then .error .cfgMinlen
      else if p.maxlen.toNat < p.minlen.toNat then .error .cfgMinmax
      else if limit p.radix.toNat (blockBits cs) < p.maxlen.toNat then .error .cfgMaxlen
      else .ok cs

/-- The configuration a successful CONFIGURE commits (R221, R223). -/
def newAct (p : Snap) (cs : Cipher) : Act where
  valid := true
  r := p.radix.toNat
  minlen := p.minlen.toNat
  maxlen := p.maxlen.toNat
  cs := cs
  bs := blockBits cs
  legacy := p.cfgr.legacy
  key := loadKey cs p.cfgr.krev p.key

/-- The configuration after a failed CONFIGURE (R224): invalid, key zeroed, every other field a free value (log 10: DESIGN CHOICE, safe). -/
def deadAct (k : Nat) : Act where
  valid := false
  r := Config.freeNat k
  minlen := Config.freeNat (k + 1)
  maxlen := Config.freeNat (k + 2)
  cs := Config.freeCipher k
  bs := Config.freeNat (k + 3)
  legacy := Config.freeBool k
  key := zeroKey

/-- CONFIGURE (R221, R224). -/
def execConfigure (s : State) : Host.Outcome State Fault Refusal :=
  match cfgCheck s.snap with
  | .ok cs => .next (completeOk { s with act := newAct s.snap cs })
  | .error e => .next (raiseError e 0 { s with act := deadAct s.freeCount, freeCount := s.freeCount + 4 })

/-- WIPE (R225); `act`'s other fields stay (log 13: DEDUCED, safe). -/
def execWipe (s : State) : Host.Outcome State Fault Refusal :=
  .next (completeOk
    { s with
      digits := []
      keys := Vector.replicate 8 0
      tweak0 := 0
      tweak1 := 0
      act := { s.act with valid := false, key := zeroKey } })

/-- An illegal command word (R226). -/
def execIllegal (s : State) : Host.Outcome State Fault Refusal := .next (raiseError .badCmd 0 s)

end Sys2Proof.Machine
end

