-- ==== Sys2Proof/Machine/Dispatch.lean ====
section
/-! DEFINITION. One arm per command. For every command but NOP this is the completion step of the engine, on the snapshot taken at
acceptance (R22, R240); NOP has no completion step and is its whole effect at acceptance (R220; log 8: DEDUCED, safe). -/

namespace Sys2Proof.Machine

def exec (i : Instr) (s : State) : Host.Outcome State Fault Refusal :=
  match i with
  | .nop => Sys2Proof.Machine.execNop s
  | .configure => Sys2Proof.Machine.execConfigure s
  | .ff3Enc => Sys2Proof.Machine.execFf3Enc s
  | .ff3Dec => Sys2Proof.Machine.execFf3Dec s
  | .bpsEnc => Sys2Proof.Machine.execBpsEnc s
  | .bpsDec => Sys2Proof.Machine.execBpsDec s
  | .wipe => Sys2Proof.Machine.execWipe s
  | .illegal _ => Sys2Proof.Machine.execIllegal s

end Sys2Proof.Machine
end

