-- ==== Sys2Proof/Machine/Bus.lean ====
section
/-! DEFINITION. The register space (R30, R53, R70, R79): which register an offset names, what a read returns and changes (R74, R80),
what a write changes (R75, R80), and the CMD write (R35, R36). -/

namespace Sys2Proof.Machine

/-- The registers of the map (R30); `reserved` is RAZ/WI (R53). -/
inductive Reg where
  | id | version | cap | cmd | status | errInfo | radix | minlen | maxlen | cfgr | msglen | twctl | tweak0 | tweak1
  | key (k : Fin 8) | irqStat | irqEn | digit (j : Nat) | reserved
deriving DecidableEq, Repr

/-- R30: the offset of each register; none for reserved space, which is no one offset. -/
def Reg.offset : Reg → Option Nat
  | .id => some 0x000
  | .version => some 0x004
  | .cap => some 0x008
  | .cmd => some 0x010
  | .status => some 0x014
  | .errInfo => some 0x018
  | .radix => some 0x020
  | .minlen => some 0x024
  | .maxlen => some 0x028
  | .cfgr => some 0x02C
  | .msglen => some 0x030
  | .twctl => some 0x034
  | .tweak0 => some 0x040
  | .tweak1 => some 0x044
  | .key k => some (0x060 + 4 * k.val)
  | .irqStat => some 0x080
  | .irqEn => some 0x084
  | .digit j => some (0x1000 + 4 * j)
  | .reserved => none

/-- R30: the control registers' rows, (offset, register). -/
def controlRegs : List (Nat × Reg) :=
  [(0x000, .id), (0x004, .version), (0x008, .cap), (0x010, .cmd), (0x014, .status), (0x018, .errInfo),
   (0x020, .radix), (0x024, .minlen), (0x028, .maxlen), (0x02C, .cfgr), (0x030, .msglen), (0x034, .twctl),
   (0x040, .tweak0), (0x044, .tweak1)] ++
  [(0x060, .key 0), (0x064, .key 1), (0x068, .key 2), (0x06C, .key 3),
   (0x070, .key 4), (0x074, .key 5), (0x078, .key 6), (0x07C, .key 7), (0x080, .irqStat), (0x084, .irqEn)]

/-- The register at a word-aligned offset of an instance with `depth` digit slots (R30, R53, R79). -/
def regAt (depth off : Nat) : Reg :=
  match controlRegs.lookup off with
  | some reg => reg
  | none => if 0x1000 ≤ off ∧ (off - 0x1000) / 4 < depth then .digit ((off - 0x1000) / 4) else .reserved

/-- ENGINE_BASE + offset: the bus address of an offset (R11, R70; log 18: DESIGN CHOICE, safe). -/
def busAddress (off : Nat) : Nat := Config.engineBase + off

/-- The engine's offset of a bus address, if the address is inside the engine's 0x8000 bytes (R70, R79). -/
def offsetOf (addr : Nat) : Option Nat :=
  if Config.engineBase ≤ addr ∧ addr < Config.engineBase + 0x8000 then some (addr - Config.engineBase) else none

/-- CAP (R33): DEPTH in [15:0], the five cipher bits 16 to 20. -/
def State.capWord (s : State) : Word := 0x001F0000 + BitVec.ofNat 32 s.dbufDepth

/-- CFGR as read (R45): the unimplemented bits read 0. -/
def Cfgr.toWord (c : Cfgr) : Word :=
  (0 : BitVec 22) ++ BitVec.ofBool c.krev ++ BitVec.ofBool c.legacy ++ (0 : BitVec 5) ++ c.cipher

/-- CFGR from a written word (R45): the unimplemented bits are ignored. -/
def Cfgr.ofWord (w : Word) : Cfgr := ⟨w.extractLsb' 0 3, w.getLsbD 8, w.getLsbD 9⟩

/-- The value of a register (R30); KEY reads 0 (R49), reserved space reads 0 (R53), DIGIT reads 0 while BUSY = 1 (R80). -/
def State.regValue (s : State) : Reg → Word
  | .id => 0x46463331
  | .version => 0x00000001
  | .cap => s.capWord
  | .cmd => s.cmd
  | .status => s.statusWord
  | .errInfo => s.errInfo
  | .radix => s.radix
  | .minlen => s.minlen
  | .maxlen => s.maxlen
  | .cfgr => s.cfgr.toWord
  | .msglen => s.msglen
  | .twctl => s.twctl.zeroExtend 32
  | .tweak0 => s.tweak0
  | .tweak1 => s.tweak1
  | .key _ => 0
  | .irqStat => s.irqStat.zeroExtend 32
  | .irqEn => s.irqEn.zeroExtend 32
  | .digit j => if s.status.busy then 0 else s.digit j
  | .reserved => 0

/-- STATUS.BUSY_ACC <- 1 (R42, R80). -/
def State.setBusyAcc (s : State) : State := { s with status := { s.status with busyAcc := true } }

/-- What a read changes (R74): nothing, but BUSY_ACC for a DIGIT read while BUSY = 1 (R80). -/
def State.afterRead (s : State) : Reg → State
  | .digit _ => if s.status.busy then s.setBusyAcc else s
  | _ => s

/-- MemRead(off, 4) at a permitted offset: the data and the state after (R71). -/
def busRead (off : Nat) (s : State) : Word × State :=
  (s.regValue (regAt s.dbufDepth off), s.afterRead (regAt s.dbufDepth off))

/-- Acceptance of a command word other than NOP (R36). -/
def accept (w : Word) (s : State) : State :=
  { s with cmd := w, status := s.status.onAccept, errInfo := 0, snap := sample w s }

/-- A write of `w` to CMD: dropped (R35), a NOP (R220), or accepted (R36). -/
def writeCmd (w : Word) (s : State) : Host.Outcome State Fault Refusal :=
  if s.status.fatal then .next s
  else if s.status.busy then .next { s with status := { s.status with cmdOvr := true } }
  else if decode w = .nop then exec .nop s
  else .next (accept w s)

/-- The effect of a write on every register but CMD (R30): RW registers store their implemented bits, IRQ_STAT is W1C (R51),
a DIGIT write while BUSY = 1 is dropped and sets BUSY_ACC (R80), RO registers and reserved space ignore it (R53, R75). -/
def State.writeReg (s : State) (v : Word) : Reg → State
  | .radix => { s with radix := v }
  | .minlen => { s with minlen := v }
  | .maxlen => { s with maxlen := v }
  | .cfgr => { s with cfgr := Cfgr.ofWord v }
  | .msglen => { s with msglen := v }
  | .twctl => { s with twctl := v.extractLsb' 0 4 }
  | .tweak0 => { s with tweak0 := v }
  | .tweak1 => { s with tweak1 := v }
  | .key k => { s with keys := s.keys.set k v }
  | .irqStat => { s with irqStat := s.irqStat &&& ~~~(v.extractLsb' 0 3) }
  | .irqEn => { s with irqEn := v.extractLsb' 0 3 }
  | .digit j => if s.status.busy then s.setBusyAcc else { s with digits := s.digits.write j v }
  | .id | .version | .cap | .status | .errInfo | .reserved | .cmd => s

/-- MemWrite(off, 4, v) at a permitted offset (R71). -/
def busWrite (off : Nat) (v : Word) (s : State) : Host.Outcome State Fault Refusal :=
  match regAt s.dbufDepth off with
  | .cmd => writeCmd v s
  | reg => .next (s.writeReg v reg)

end Sys2Proof.Machine
end

