-- ==== Sys2Proof/Machine/Agents.lean ====
section
/-! DEFINITION. The turns of the agents (R22): the engine's completion step, one access of the host (R71, R72, R109), and reset
(R270); and the host's pseudo-instructions (R110). -/

namespace Sys2Proof.Machine

/-- The engine's step: the completion of the command in flight, decoded from the accepted word (R22, R36, R240).
With no command in flight, or stuck after INTERNAL (R41, R246), the engine takes no step (log 21: DESIGN CHOICE, safe). -/
def engineTurn (s : State) : Host.Outcome State Fault Refusal :=
  if s.status.busy && !s.status.fatal then exec (decode s.snap.word) s else .next s

/-- Why an access is not performed: outside the engine's space (R79), or not an aligned word (R72). -/
def accessFault (width : Width) (off : Nat) : Option Fault :=
  if 0x8000 ≤ off then some (.outsideEngine off)
  else if width ≠ .word ∨ off % 4 ≠ 0 then some (.busError width off)
  else none

/-- The host has read `v` at `off` (R109; log 19: DESIGN CHOICE, safe). -/
def State.observe (off : Nat) (v : Word) (s : State) : State := { s with reads := (off, v) :: s.reads }

/-- The host's next access, if it has one (R82: one at a time, in arrival order). A POLL stays until its condition holds (log 20: DESIGN CHOICE, safe). -/
def hostTurn (s : State) : Host.Outcome State Fault Refusal :=
  match s.host with
  | [] => .next s
  | .wr width off v :: rest =>
    match accessFault width off with
    | some f => .fault f
    | none => busWrite off v { s with host := rest }
  | .rd width off :: rest =>
    match accessFault width off with
    | some f => .fault f
    | none => .next ((busRead off { s with host := rest }).2.observe off (busRead off s).1)
  | .poll off mask val :: rest =>
    match accessFault .word off with
    | some f => .fault f
    | none =>
      .next ((busRead off { s with host := if (busRead off s).1 &&& mask = val then rest else s.host }).2.observe off (busRead off s).1)

/-- Whose turn it is when no turn is given: the engine while a command runs, else the host. So every accepted command completes
(R282; log 6: DESIGN CHOICE, safe). -/
def defaultTurn (s : State) : Turn := if s.status.busy && !s.status.fatal then .engine else .host

/-- One turn of an agent. -/
def runTurn (t : Turn) (s : State) : Host.Outcome State Fault Refusal :=
  match t with
  | .host => hostTurn s
  | .engine => engineTurn s
  | .reset => .next (resetEngine s)

/-- `WR NAME, v` for a register of the map (R109). -/
def wr (reg : Reg) (v : Word) : HostOp := .wr .word (reg.offset.getD 0x00C) v

/-- `RD NAME` (R109). -/
def rd (reg : Reg) : HostOp := .rd .word (reg.offset.getD 0x00C)

/-- `CMD.<name>` (R110). -/
def cmdOp (i : Instr) : HostOp := wr .cmd (encode i)

/-- `WAIT` (R110): POLL STATUS until BUSY = 0. -/
def waitOp : HostOp := .poll 0x014 1 0

/-- `KEY k0, …` (R110): at most 8 words. -/
def keyOps (ks : List Word) : List HostOp :=
  (ks.zip [0x060, 0x064, 0x068, 0x06C, 0x070, 0x074, 0x078, 0x07C]).map fun p => .wr .word p.2 p.1

/-- `TWEAK t0, t1, len` (R110). -/
def tweakOps (t0 t1 len : Word) : List HostOp := [wr .tweak0 t0, wr .tweak1 t1, wr .twctl len]

/-- `DIGITS d0, …` (R110): the digits, then MSGLEN. -/
def digitsOps (ds : List Word) : List HostOp :=
  (ds.zipIdx.map fun p => wr (.digit p.2) p.1) ++ [wr .msglen (BitVec.ofNat 32 ds.length)]

end Sys2Proof.Machine
end

