-- ==== Sys2Proof/Machine/Step.lean ====
section
/-! DEFINITION. The step: the next turn of the schedule, or the default turn; and where a command word is placed so that the very next
step runs it. -/

namespace Sys2Proof.Machine

/-- One step: one event of the total order of accesses, completions and resets (R82; log 6: DESIGN CHOICE, safe). -/
def step (s : State) : Host.Outcome State Fault Refusal :=
  match s.turns with
  | [] => runTurn (defaultTurn s) s
  | t :: ts => runTurn t { s with turns := ts }

/-- `s` with the command word `w` placed so that the next step runs it (R21: the engine fetches nothing; log 7: DESIGN CHOICE, safe). A command other than
NOP has been written to CMD and accepted, and the engine moves next; a NOP has no completion step, so its CMD write is the host's
next access to an idle engine. -/
def State.withFetchWord (s : State) (nbits w : Nat) : State :=
  let word := BitVec.ofNat 32 (w % 2 ^ nbits)
  let idle := { s with status := { s.status with busy := false, fatal := false } }
  if decode word = .nop then { idle with host := .wr .word 0x010 word :: s.host, turns := .host :: s.turns }
  else { accept word idle with turns := .engine :: s.turns }

end Sys2Proof.Machine
end

