-- ==== Sys2Proof/Machine/BigAcc.lean ====
section
/-! DEFINITION. The informative implementation of the arithmetic (R134, R135): the 96-bit accumulator in three 32-bit limbs with its
overflow faults, shift-and-subtract division, radix_pow (R124), and the 128-bit reducer. No command rests on this file (R134: "No rule
depends on them"); log 26: DESIGN CHOICE, safe. -/

namespace Sys2Proof.Machine

/-- Three 32-bit limbs, low, mid, high (R134). -/
structure BigAcc where
  low : Word
  mid : Word
  high : Word
deriving DecidableEq, Repr

/-- The 96-bit value. -/
def BigAcc.value (a : BigAcc) : Nat := a.low.toNat + a.mid.toNat * 2 ^ 32 + a.high.toNat * 2 ^ 64

/-- The limbs of a number, its low 96 bits. -/
def BigAcc.ofNat (x : Nat) : BigAcc := ⟨BitVec.ofNat 32 x, BitVec.ofNat 32 (x / 2 ^ 32), BitVec.ofNat 32 (x / 2 ^ 64)⟩

/-- add (R134): 3-limb ripple with carry; a carry out is an overflow fault (`none`). -/
def BigAcc.add (a b : BigAcc) : Option BigAcc :=
  let l := a.low.toNat + b.low.toNat
  let m := a.mid.toNat + b.mid.toNat + l / 2 ^ 32
  let h := a.high.toNat + b.high.toNat + m / 2 ^ 32
  if h / 2 ^ 32 = 0 then some ⟨BitVec.ofNat 32 l, BitVec.ofNat 32 m, BitVec.ofNat 32 h⟩ else none

/-- sub (R134): 3-limb ripple with borrow; a borrow out is an overflow fault (`none`). Each limb is subtracted from 2^32 + itself, so
that its carry is 1 exactly when nothing was borrowed. -/
def BigAcc.sub (a b : BigAcc) : Option BigAcc :=
  let l := 2 ^ 32 + a.low.toNat - b.low.toNat
  let m := 2 ^ 32 + a.mid.toNat - b.mid.toNat - (1 - l / 2 ^ 32)
  let h := 2 ^ 32 + a.high.toNat - b.high.toNat - (1 - m / 2 ^ 32)
  if h / 2 ^ 32 = 1 then some ⟨BitVec.ofNat 32 l, BitVec.ofNat 32 m, BitVec.ofNat 32 h⟩ else none

/-- multiply_add (§4.1, R120): self·a + b; a value of more than 96 bits is an overflow fault (`none`). -/
def BigAcc.multiplyAdd (s : BigAcc) (a b : Nat) : Option BigAcc :=
  let l := s.low.toNat * a + b
  let m := s.mid.toNat * a + l / 2 ^ 32
  let h := s.high.toNat * a + m / 2 ^ 32
  if h / 2 ^ 32 = 0 then some ⟨BitVec.ofNat 32 l, BitVec.ofNat 32 m, BitVec.ofNat 32 h⟩ else none

/-- shl (R134): shifting out non-zero bits is a fault (`none`). -/
def BigAcc.shl (a : BigAcc) (k : Nat) : Option BigAcc :=
  if a.value * 2 ^ k < 2 ^ 96 then some (BigAcc.ofNat (a.value * 2 ^ k)) else none

/-- shr (R134). -/
def BigAcc.shr (a : BigAcc) (k : Nat) : BigAcc := BigAcc.ofNat (a.value / 2 ^ k)

/-- Comparison (R134): lexicographic on (high, mid, low). -/
def BigAcc.lt (a b : BigAcc) : Bool :=
  decide (a.high < b.high) || (a.high == b.high && (decide (a.mid < b.mid) || (a.mid == b.mid && decide (a.low < b.low))))

/-- count_leading_zeros (R134): 96 for zero. -/
def BigAcc.clz (a : BigAcc) : Nat := (List.range 96).findIdx fun i => a.value.testBit (95 - i)

/-- Shift-and-subtract at bit positions `k − 1` down to 0: (quotient, remainder). -/
def shiftSubtract (d : Nat) : Nat → Nat → Nat → Nat × Nat
  | 0, x, q => (q, x)
  | k + 1, x, q => if d * 2 ^ k ≤ x then shiftSubtract d k (x - d * 2 ^ k) (q + 2 ^ k) else shiftSubtract d k x q

/-- divrem (R134): "total iterations = (CLZ(d) − CLZ(self)) + 1", none when CLZ(self) > CLZ(d). -/
def BigAcc.divrem (a d : BigAcc) : BigAcc × BigAcc :=
  let qr := shiftSubtract d.value (d.clz + 1 - a.clz) a.value 0
  (BigAcc.ofNat qr.1, BigAcc.ofNat qr.2)

/-- radix_pow (R124): start from one and multiply by r, k times. -/
def radixPow (r : Nat) : Nat → Option BigAcc
  | 0 => some (BigAcc.ofNat 1)
  | k + 1 => (radixPow r k).bind fun a => a.multiplyAdd r 0

/-- The reducer's loop (R135): compare, subtract, shift the divisor right by one. -/
def reduceLoop : Nat → Nat → Nat → Nat
  | 0, _, x => x
  | k + 1, d, x => reduceLoop k (d / 2) (if d ≤ x then x - d else x)

/-- The 128-bit reducer (R135): the divisor shifted to the top of 128 bits, "32 + shift_count + 1" iterations, then narrowed with
an overflow check (`none`). -/
def reduce128 (x : Nat) (d : BigAcc) : Option BigAcc :=
  let y := reduceLoop (32 + d.clz + 1) (d.value * 2 ^ d.clz * 2 ^ 32) x
  if y < 2 ^ 96 then some (BigAcc.ofNat y) else none

end Sys2Proof.Machine
end

