-- ==== Sys2Proof/Safety.lean ====
section
/-! DEFINITION. What a good state is: the invariant every step keeps, in the terms the statements use. -/

namespace Sys2Proof.Machine

/-- A valid active configuration is one CONFIGURE accepts (R222) with the block size and key length of its selection (R60). -/
structure Act.Ok (a : Act) : Prop where
  radix : 2 ≤ a.r ∧ a.r ≤ 65536
  minlen : minok a.r a.minlen = true
  order : a.minlen ≤ a.maxlen
  maxlen : a.maxlen ≤ limit a.r a.bs
  blockSize : a.bs = blockBits a.cs
  keyLength : a.key.length = keyLen a.cs

/-- The codes STATUS.ERRCODE reports after an error completion of a conforming engine (R242). -/
def errorCodes : List (BitVec 8) :=
  [0x01, 0x02, 0x10, 0x11, 0x12, 0x13, 0x14, 0x15, 0x20, 0x21, 0x22, 0x23]

/-- A good state: what holds at reset and after every step. It rules out the states no run of a conforming engine reaches. -/
structure State.Inv (s : State) : Prop where
  /-- DBUF_DEPTH is 192 to 4096 (R8). -/
  depth : 192 ≤ s.dbufDepth ∧ s.dbufDepth ≤ 4096
  /-- The digit buffer is in canonical form (log 1). -/
  digitsWf : Memory.wf s.digits
  /-- It lists only existing slots (R50). -/
  digitsIn : ∀ p ∈ s.digits, p.1 < s.dbufDepth
  /-- A valid configuration passed CONFIGURE's checks (R60, R222). -/
  actOk : s.act.valid = true → s.act.Ok
  /-- Without a configuration no key is held (R60, R224, R225). -/
  keyGone : s.act.valid = false → ∀ b ∈ s.act.key, b = 0
  /-- DONE and ERR are never both 1 (R38). -/
  notBoth : ¬(s.status.done = true ∧ s.status.err = true)
  /-- ERRCODE is 0 unless ERR = 1 (R37, R39). -/
  noCode : s.status.err = false → s.status.errCode = 0
  /-- With ERR = 1 it is a code of R242 other than NONE and INTERNAL. -/
  code : s.status.err = true → s.status.errCode ∈ errorCodes
  /-- ERRINFO is 0 except after IN_DIGIT (R43), where it is a slot of the buffer. -/
  info : s.errInfo ≠ 0 → s.status.errCode = ErrName.inDigit.code ∧ s.errInfo.toNat < s.dbufDepth
  /-- While a command runs there is no result yet (R36, R39). -/
  running : s.status.busy = true → s.status.done = false ∧ s.status.err = false
  /-- The command in flight is the word CMD reads, and is no NOP (R34, R36). -/
  inFlight : s.status.busy = true → s.snap.word = s.cmd ∧ decode s.cmd ≠ .nop
  /-- The snapshot holds 8 tweak bytes and 32 key bytes (R62). -/
  snapSizes : s.status.busy = true → s.snap.tweak.length = 8 ∧ s.snap.key.length = 32
  /-- A conforming engine never raises INTERNAL (R246). -/
  notFatal : s.status.fatal = false

/-- Whose turn the next step is (R22; log 6). -/
def State.whose (s : State) : Turn :=
  match s.turns with
  | [] => defaultTurn s
  | t :: _ => t

/-- The state with STATUS.BUSY set to `b` and nothing else changed. -/
def State.withBusy (b : Bool) (s : State) : State := { s with status := { s.status with busy := b } }

/-- `t` is `s` but for what a data command's completion may write (R170, R200): DIGIT, STATUS, ERRINFO and IRQ_STAT. Every other
register, TWEAK0 and TWEAK1 among them (R210), `act` and the model's own fields are unchanged, and so is `snap` (log 25: DESIGN CHOICE,
unsafe). -/
def sameButResult (s t : State) : Prop :=
  t = { s with digits := t.digits, status := t.status, errInfo := t.errInfo, irqStat := t.irqStat }

/-- The flags of a successful completion (R240); the other STATUS flags are unchanged. -/
def completedOk (s t : State) : Prop :=
  t.status = { s.status with busy := false, done := true, err := false, errCode := 0x00 } ∧
  t.errInfo = 0 ∧ t.irqStat = s.irqStat ||| 0b001

/-- The command `i` at `s` ends with error `code` and ERRINFO `info`, and changes nothing but what R241 lists. -/
def endsInError (i : Instr) (s : State) (code : BitVec 8) (info : Nat) : Prop :=
  exec i s = .next
    { s with
      status := { s.status with busy := false, done := false, err := true, errCode := code }
      errInfo := BitVec.ofNat 32 info
      irqStat := s.irqStat ||| 0b010 }

/-- The tweak lengths FF3 commands accept (R155). -/
def ff3TweakAccepted (s : State) : Prop :=
  s.snap.tlen = 0 ∨ s.snap.tlen = 7 ∨ (s.snap.tlen = 8 ∧ s.act.legacy = true)

/-- The tweak lengths BPS commands accept (R211). -/
def bpsTweakAccepted (s : State) : Prop := s.snap.tlen = 0 ∨ s.snap.tlen = 8

/-- The message digits DIGIT[0..n) are all below the radix (R182, R211). -/
def digitsBelowRadix (s : State) : Prop := ∀ j < s.snap.n.toNat, (s.digit j).toNat < s.act.r

/-- `t` holds the digits `y` in DIGIT[0..n), every one below act.r, and the digits of `s` everywhere else (R50, R180). -/
def resultStored (s t : State) (y : List Nat) : Prop :=
  (∀ j < s.snap.n.toNat, (t.digit j).toNat = y.getD j 0 ∧ (t.digit j).toNat < s.act.r) ∧
  ∀ j, s.snap.n.toNat ≤ j → t.digit j = s.digit j

/-- A digit string over radix r (R10). -/
def digitString (r : Nat) (x : List Nat) : Prop := ∀ d ∈ x, d < r

end Sys2Proof.Machine
end

