-- ==== Sys2Proof/Certificates/Slice0/Obligations.lean ====
section
/-! DEFINITION. The statements for the provers, from the numbered rules of spec/. -/

open Sys2Proof Sys2Proof.Machine

/-! ## Encoding -/

/-- Decoding an encoded well-formed command gives it back, and encoding a decoded word gives the word back (R101, R103, R107). -/
def Obligations.DecodeAndEncodeAgree : Prop :=
  (∀ i : Instr, i.wf = true → decode (encode i) = i) ∧
  ∀ w : Word, (decode w).wf = true ∧ encode (decode w) = w

/-- Every word above 6, and every word with a reserved bit set, is illegal, and carries itself (R102, R107). -/
def Obligations.IllegalWordsAreAllTheOthers : Prop :=
  ∀ w : Word,
    (6 < w.toNat → decode w = .illegal w) ∧
    (rsvField w ≠ 0 → decode w = .illegal w) ∧
    (∀ v, decode w = .illegal v → v = w ∧ 6 < w.toNat)

/-- The words of R101 decode to their commands; reserved words to ILLEGAL (R226, V-CTL-2 to V-CTL-4). -/
def Obligations.OpcodeWordsDecode : Prop :=
  decode 0x00000000 = .nop ∧ decode 0x00000001 = .configure ∧ decode 0x00000002 = .ff3Enc ∧ decode 0x00000003 = .ff3Dec ∧
  decode 0x00000004 = .bpsEnc ∧ decode 0x00000005 = .bpsDec ∧ decode 0x00000006 = .wipe ∧
  decode 0x00000007 = .illegal 0x00000007 ∧ decode 0x0000000F = .illegal 0x0000000F ∧
  decode 0x00000010 = .illegal 0x00000010 ∧ decode 0x00000012 = .illegal 0x00000012 ∧
  decode 0x80000002 = .illegal 0x80000002

/-! ## The step -/

/-- With a command in flight the engine's step is `exec` of the decoded accepted word, on the state with the turn used up; the host's
step is its next access; and the host's write of a NOP to an idle engine is `exec .nop` (turns: the model's choice, log 6). -/
def Obligations.StepRunsTheCommandInFlight : Prop :=
  ∀ s : State,
    (s.status.busy = true → s.status.fatal = false →
      (s.turns = [] → step s = exec (decode s.snap.word) s) ∧
      ∀ ts, s.turns = .engine :: ts → step s = exec (decode s.snap.word) { s with turns := ts }) ∧
    (s.status.busy = false ∨ s.status.fatal = true → s.turns = [] → step s = hostTurn s) ∧
    (∀ ts, s.turns = .host :: ts → step s = hostTurn { s with turns := ts }) ∧
    ∀ w rest, s.host = .wr .word 0x010 w :: rest → s.status.busy = false → s.status.fatal = false → decode w = .nop →
      (s.turns = [] → step s = exec .nop { s with host := rest }) ∧
      ∀ ts, s.turns = .host :: ts → step s = exec .nop { s with host := rest, turns := ts }

/-- A word placed by `withFetchWord` is what the next step runs: a command other than NOP as the completion of its acceptance by the
idle engine, NOP as the write to the idle engine (model's choice, log 7). -/
def Obligations.PlacedWordRunsNext : Prop :=
  ∀ (s : State) (w : Word),
    let idle := { s with status := { s.status with busy := false, fatal := false } }
    (decode w ≠ .nop → step (s.withFetchWord 32 w.toNat) = exec (decode w) (accept w idle)) ∧
    (decode w = .nop → step (s.withFetchWord 32 w.toNat) = exec .nop idle)

/-! ## Acceptance and access while a command runs -/

/-- R36: an idle engine accepts a CMD write; NOP only sets CMD, every other word starts a command on a snapshot of its operands, and the
engine's step then completes the command of that word. -/
def Obligations.CommandWriteIsAccepted : Prop :=
  ∀ (s : State) (w : Word), s.status.busy = false → s.status.fatal = false →
    (w = 0 → busWrite 0x010 w s = .next { s with cmd := 0 }) ∧
    (w ≠ 0 → busWrite 0x010 w s = .next
      { s with
        cmd := w
        status := ⟨true, false, false, false, false, false, 0⟩
        errInfo := 0
        snap :=
          { word := w, n := s.msglen, tlen := s.twctl, tweak := wordBytes s.tweak0 ++ wordBytes s.tweak1,
            radix := s.radix, minlen := s.minlen, maxlen := s.maxlen, cfgr := s.cfgr, key := keyBytes s.keys } }) ∧
    (w ≠ 0 → ∀ t, busWrite 0x010 w s = .next t → engineTurn t = exec (decode w) t)

/-- R35: a CMD write is dropped without trace while FATAL = 1, and with CMD_OVR set while BUSY = 1. -/
def Obligations.CommandWriteIsDropped : Prop :=
  ∀ (s : State) (w : Word),
    (s.status.fatal = true → busWrite 0x010 w s = .next s) ∧
    (s.status.fatal = false → s.status.busy = true →
      busWrite 0x010 w s = .next { s with status := { s.status with cmdOvr := true } })

/-- R80: while BUSY = 1 a DIGIT read returns 0 and a DIGIT write is dropped, each setting BUSY_ACC; every register but DIGIT and CMD
is read and written as if BUSY were 0, without affecting the running command. -/
def Obligations.AccessWhileBusy : Prop :=
  (∀ (s : State) (j : Nat) (v : Word), s.status.busy = true → j < s.dbufDepth → s.dbufDepth ≤ 4096 →
    busRead (0x1000 + 4 * j) s = (0, { s with status := { s.status with busyAcc := true } }) ∧
    busWrite (0x1000 + 4 * j) v s = .next { s with status := { s.status with busyAcc := true } }) ∧
  ∀ (s : State) (off : Nat) (v : Word), s.status.busy = true → (∀ j, regAt s.dbufDepth off ≠ .digit j) →
    regAt s.dbufDepth off ≠ .cmd →
    (∃ t, busWrite off v (s.withBusy false) = .next t ∧ busWrite off v s = .next (t.withBusy true) ∧ t.snap = s.snap ∧
      t.act = s.act ∧ t.digits = s.digits) ∧
    (busRead off s).2 = s ∧ (busRead off (s.withBusy false)).2 = s.withBusy false ∧
    (regAt s.dbufDepth off ≠ .status → (busRead off s).1 = (busRead off (s.withBusy false)).1)

/-- R62: a host access while a command runs changes neither its snapshot, nor `act`, nor the digits, nor CMD, nor BUSY. -/
def Obligations.RunningCommandIsIsolated : Prop :=
  ∀ s t : State, s.status.busy = true → hostTurn s = .next t →
    t.snap = s.snap ∧ t.act = s.act ∧ t.digits = s.digits ∧ t.cmd = s.cmd ∧ t.status.busy = true

/-- R62: what a command's completion leaves in DIGIT, `act`, DONE, ERR, ERRCODE and ERRINFO depends only on the snapshot, `act` and
the digit buffer (and the model's free-value counter, log 14). -/
def Obligations.ResultDependsOnlyOnSnapshot : Prop :=
  ∀ (i : Instr) (s s' t : State), i ≠ .nop → s'.snap = s.snap → s'.act = s.act → s'.digits = s.digits →
    s'.dbufDepth = s.dbufDepth → s'.freeCount = s.freeCount → exec i s = .next t →
    ∃ t', exec i s' = .next t' ∧ t'.digits = t.digits ∧ t'.act = t.act ∧ t'.status.done = t.status.done ∧
      t'.status.err = t.status.err ∧ t'.status.errCode = t.status.errCode ∧ t'.errInfo = t.errInfo

/-! ## Registers and the bus -/

/-- R31 to R33: the identity registers hold their constants and ignore writes. -/
def Obligations.IdentityRegisters : Prop :=
  ∀ (s : State) (v : Word), s.dbufDepth ≤ 4096 →
    busRead 0x000 s = (0x46463331, s) ∧ busWrite 0x000 v s = .next s ∧
    busRead 0x004 s = (0x00000001, s) ∧ busWrite 0x004 v s = .next s ∧
    (busRead 0x008 s).2 = s ∧ (busRead 0x008 s).1.toNat = 0x001F0000 + s.dbufDepth ∧ busWrite 0x008 v s = .next s

/-- R37, R40: the STATUS word's bits are its fields, CFG_OK is act.valid, the reserved bits read 0, and a write has no effect. -/
def Obligations.StatusWordBits : Prop :=
  ∀ (s : State) (v : Word),
    busWrite 0x014 v s = .next s ∧
    (busRead 0x014 s).1.getLsbD 0 = s.status.busy ∧ (busRead 0x014 s).1.getLsbD 1 = s.status.done ∧
    (busRead 0x014 s).1.getLsbD 2 = s.status.err ∧ (busRead 0x014 s).1.getLsbD 3 = s.act.valid ∧
    (busRead 0x014 s).1.getLsbD 4 = s.status.fatal ∧ (busRead 0x014 s).1.getLsbD 5 = s.status.cmdOvr ∧
    (busRead 0x014 s).1.getLsbD 6 = s.status.busyAcc ∧ (busRead 0x014 s).1.getLsbD 7 = false ∧
    (busRead 0x014 s).1.extractLsb' 8 8 = s.status.errCode ∧ (busRead 0x014 s).1.extractLsb' 16 16 = 0

/-- R44 to R50, R52: a write stores the implemented bits of its register, changes nothing else, and reads back; a KEY register reads 0. -/
def Obligations.WrittenRegistersReadBack : Prop :=
  ∀ (s : State) (v : Word),
    (∃ t, busWrite 0x020 v s = .next t ∧ t = { s with radix := v } ∧ (busRead 0x020 t).1 = v) ∧
    (∃ t, busWrite 0x024 v s = .next t ∧ t = { s with minlen := v } ∧ (busRead 0x024 t).1 = v) ∧
    (∃ t, busWrite 0x028 v s = .next t ∧ t = { s with maxlen := v } ∧ (busRead 0x028 t).1 = v) ∧
    (∃ t, busWrite 0x02C v s = .next t ∧ t = { s with cfgr := t.cfgr } ∧ (busRead 0x02C t).1 = v &&& 0x00000307) ∧
    (∃ t, busWrite 0x030 v s = .next t ∧ t = { s with msglen := v } ∧ (busRead 0x030 t).1 = v) ∧
    (∃ t, busWrite 0x034 v s = .next t ∧ t = { s with twctl := t.twctl } ∧ (busRead 0x034 t).1 = v &&& 0x0000000F) ∧
    (∃ t, busWrite 0x040 v s = .next t ∧ t = { s with tweak0 := v } ∧ (busRead 0x040 t).1 = v) ∧
    (∃ t, busWrite 0x044 v s = .next t ∧ t = { s with tweak1 := v } ∧ (busRead 0x044 t).1 = v) ∧
    (∀ k : Fin 8, ∃ t, busWrite (0x060 + 4 * k.val) v s = .next t ∧ t = { s with keys := s.keys.set k v } ∧
      (busRead (0x060 + 4 * k.val) t).1 = 0) ∧
    (∃ t, busWrite 0x084 v s = .next t ∧ t = { s with irqEn := t.irqEn } ∧ (busRead 0x084 t).1 = v &&& 0x00000007) ∧
    (∀ j < s.dbufDepth, s.dbufDepth ≤ 4096 → s.status.busy = false → s.digits.wf →
      ∃ t, busWrite (0x1000 + 4 * j) v s = .next t ∧ t = { s with digits := t.digits } ∧
        (busRead (0x1000 + 4 * j) t).1 = v ∧ ∀ i, i ≠ j → t.digit i = s.digit i)

/-- R51: a write to IRQ_STAT clears the bits it names, keeps the others, and changes nothing else. -/
def Obligations.InterruptStatusWriteOneClears : Prop :=
  ∀ (s : State) (v : Word), ∃ t, busWrite 0x080 v s = .next t ∧ t = { s with irqStat := t.irqStat } ∧
    ∀ i < 3, t.irqStat.getLsbD i = (s.irqStat.getLsbD i && !v.getLsbD i)

/-- R248: the irq line. -/
def Obligations.InterruptLine : Prop :=
  ∀ s : State, s.irq = true ↔ (((busRead 0x080 s).1 &&& (busRead 0x084 s).1) &&& 0x7) ≠ 0

/-- R53: reserved offsets read 0 and ignore writes; the reserved bits of a register read 0 and do not matter in a write, but CMD keeps
the whole accepted word. -/
def Obligations.ReservedSpaceReadsZero : Prop :=
  (∀ (s : State) (w : Word), s.status.busy = false → s.status.fatal = false →
    ∃ t, busWrite 0x010 w s = .next t ∧ (busRead 0x010 t).1 = w) ∧
  (∀ (s : State) (off : Nat) (v : Word), s.dbufDepth ≤ 4096 → off % 4 = 0 →
    (off = 0x00C ∨ off = 0x01C ∨ off = 0x038 ∨ off = 0x03C ∨ (0x048 ≤ off ∧ off ≤ 0x05C) ∨ (0x088 ≤ off ∧ off ≤ 0x0FFC) ∨
      (0x1000 + 4 * s.dbufDepth ≤ off ∧ off ≤ 0x7FFC)) →
    busRead off s = (0, s) ∧ busWrite off v s = .next s) ∧
  ∀ (s : State) (v : Word),
    (s.dbufDepth ≤ 4096 → (busRead 0x008 s).1 &&& 0xFFE00000 = 0) ∧ (busRead 0x014 s).1 &&& 0xFFFF0080 = 0 ∧ (busRead 0x02C s).1 &&& 0xFFFFFCF8 = 0 ∧ (busRead 0x034 s).1 &&& 0xFFFFFFF0 = 0 ∧
    (busRead 0x080 s).1 &&& 0xFFFFFFF8 = 0 ∧ (busRead 0x084 s).1 &&& 0xFFFFFFF8 = 0 ∧
    busWrite 0x02C v s = busWrite 0x02C (v &&& 0x00000307) s ∧ busWrite 0x034 v s = busWrite 0x034 (v &&& 0x0000000F) s ∧
    busWrite 0x080 v s = busWrite 0x080 (v &&& 0x00000007) s ∧ busWrite 0x084 v s = busWrite 0x084 (v &&& 0x00000007) s

/-- R72: a sub-word or misaligned access is a host fault. -/
def Obligations.SubWordAccessIsABusError : Prop :=
  ∀ (s : State) (width : Width) (off : Nat) (v : Word) (rest : List HostOp), off < 0x8000 → (width ≠ .word ∨ off % 4 ≠ 0) →
    (s.host = .wr width off v :: rest → hostTurn s = .fault (.busError width off)) ∧
    (s.host = .rd width off :: rest → hostTurn s = .fault (.busError width off))

/-- R71, R282: every aligned word access inside the engine's space is served, whatever the state: a write performs the register's write
action, a read gives the register's value. -/
def Obligations.AlignedAccessesAreServed : Prop :=
  ∀ (s : State) (off : Nat) (v : Word) (rest : List HostOp), off < 0x8000 → off % 4 = 0 →
    (s.host = .wr .word off v :: rest →
      ∃ t, hostTurn s = .next t ∧ busWrite off v { s with host := rest } = .next t ∧ t.host = rest ∧ t.reads = s.reads) ∧
    (s.host = .rd .word off :: rest →
      ∃ t, hostTurn s = .next t ∧ t.host = rest ∧ t.reads = (off, s.regValue (regAt s.dbufDepth off)) :: s.reads)

/-- R74: a read changes nothing, except that a DIGIT read while BUSY = 1 sets BUSY_ACC; read again, it returns the same. -/
def Obligations.ReadsHaveNoSideEffects : Prop :=
  ∀ (s : State) (off : Nat),
    ((busRead off s).2 ≠ s → s.status.busy = true ∧ ∃ j < s.dbufDepth, regAt s.dbufDepth off = .digit j) ∧
    (∀ j, s.status.busy = true → regAt s.dbufDepth off = .digit j →
      (busRead off s).2 = { s with status := { s.status with busyAcc := true } }) ∧
    (busRead off (busRead off s).2).1 = (busRead off s).1

/-- R49, R252: no read tells two states apart that differ only in key material. -/
def Obligations.KeysAreNeverReadable : Prop :=
  ∀ (s : State) (off : Nat) (keys : Vector Word 8) (k k' : List Byte),
    (busRead off { s with keys := keys, act := { s.act with key := k }, snap := { s.snap with key := k' } }).1 = (busRead off s).1

/-! ## Control commands -/

/-- R220: NOP's only effect is CMD <- 0, at acceptance; while BUSY = 1 its write is dropped and sets CMD_OVR. -/
def Obligations.NopOnlySetsCmd : Prop :=
  ∀ s : State,
    exec .nop s = .next { s with cmd := 0 } ∧
    (s.status.fatal = false → s.status.busy = false → busWrite 0x010 0x00000000 s = exec .nop s) ∧
    (s.status.fatal = false → s.status.busy = true →
      busWrite 0x010 0x00000000 s = .next { s with status := { s.status with cmdOvr := true } })

/-- R221, R222: a configuration that passes every check is committed, with the key of R156. That `snap` is unchanged after the
completion is the model's choice (log 25, DESIGN CHOICE, unsafe), no rule's. -/
def Obligations.ConfigureCommits : Prop :=
  ∀ (s : State) (cs : Cipher), cipherOf s.snap.cfgr.cipher = some cs → 2 ≤ s.snap.radix.toNat → s.snap.radix.toNat ≤ 65536 →
    2 ≤ s.snap.minlen.toNat → 10 ^ 6 ≤ s.snap.radix.toNat ^ s.snap.minlen.toNat → s.snap.minlen.toNat ≤ s.snap.maxlen.toNat →
    s.snap.maxlen.toNat ≤ limit s.snap.radix.toNat (blockBits cs) →
    exec .configure s = .next
      { s with
        act :=
          { valid := true, r := s.snap.radix.toNat, minlen := s.snap.minlen.toNat, maxlen := s.snap.maxlen.toNat, cs := cs,
            bs := blockBits cs, legacy := s.snap.cfgr.legacy,
            key := if s.snap.cfgr.krev then (s.snap.key.take (keyLen cs)).reverse else s.snap.key.take (keyLen cs) }
        status := { s.status with busy := false, done := true, err := false, errCode := 0x00 }
        errInfo := 0
        irqStat := s.irqStat ||| 0b001 }

/-- R222, R224: the first failing check names the error; the configuration is invalidated and its key zeroed, nothing else changes. -/
def Obligations.ConfigureFailsByFirstCheck : Prop :=
  ∀ s : State,
    let p := s.snap
    let fails : BitVec 8 → Prop := fun code => ∃ t, exec .configure s = .next t ∧ t.act.valid = false ∧ (∀ b ∈ t.act.key, b = 0) ∧
      t = { s with
            act := t.act
            freeCount := t.freeCount
            status := { s.status with busy := false, done := false, err := true, errCode := code }
            errInfo := 0
            irqStat := s.irqStat ||| 0b010 }
    (p.cfgr.cipher = 0 → fails 0x10) ∧
    (p.cfgr.cipher = 6 ∨ p.cfgr.cipher = 7 → fails 0x11) ∧
    ∀ cs, cipherOf p.cfgr.cipher = some cs →
      (p.radix.toNat < 2 ∨ 65536 < p.radix.toNat → fails 0x12) ∧
      (2 ≤ p.radix.toNat → p.radix.toNat ≤ 65536 →
        (¬(2 ≤ p.minlen.toNat ∧ 10 ^ 6 ≤ p.radix.toNat ^ p.minlen.toNat) → fails 0x13) ∧
        (2 ≤ p.minlen.toNat → 10 ^ 6 ≤ p.radix.toNat ^ p.minlen.toNat →
          (p.maxlen.toNat < p.minlen.toNat → fails 0x14) ∧
          (p.minlen.toNat ≤ p.maxlen.toNat → limit p.radix.toNat (blockBits cs) < p.maxlen.toNat → fails 0x15)))

/-- R225: WIPE zeroes DIGIT, KEY, TWEAK and act.key and invalidates the configuration; every other register is unchanged.
That the other fields of `act` keep their values is the model's inference (log 13, DEDUCED), and that `snap` is unchanged is its choice
(log 25, DESIGN CHOICE, unsafe). -/
def Obligations.WipeZeroizes : Prop :=
  ∀ s : State, ∃ t, exec .wipe s = .next t ∧ completedOk s t ∧ (∀ j, t.digit j = 0) ∧ (∀ k : Fin 8, t.keys[k] = 0) ∧
    t.tweak0 = 0 ∧ t.tweak1 = 0 ∧ t.act.valid = false ∧ (∀ b ∈ t.act.key, b = 0) ∧
    t = { s with
          digits := t.digits
          keys := t.keys
          tweak0 := 0
          tweak1 := 0
          act := { s.act with valid := false, key := t.act.key }
          status := t.status
          errInfo := 0
          irqStat := t.irqStat }

/-- R226: every word above 6, and every word with a reserved bit set, completes with BAD_CMD and changes nothing but STATUS, ERRINFO and
IRQ_STAT. -/
def Obligations.IllegalCommandRaisesBadCmd : Prop :=
  ∀ (w : Word) (s : State),
    endsInError (.illegal w) s 0x01 0 ∧ (6 < w.toNat → endsInError (decode w) s 0x01 0) ∧
    (rsvField w ≠ 0 → endsInError (decode w) s 0x01 0)

/-! ## Data commands -/

/-- R170: FF3_ENC replaces DIGIT[0..n) by FeistelEnc of it, leaves every other slot and register, and completes. The premise Inv rules
out the configurations no CONFIGURE commits, in which the datapath could overflow (R246). That `snap` is unchanged after the completion
(in sameButResult) is the model's choice (log 25, DESIGN CHOICE, unsafe), no rule's. -/
def Obligations.Ff3EncEncryptsInPlace : Prop :=
  ∀ s : State, s.Inv → s.act.valid = true → s.act.bs = 128 → ff3TweakAccepted s → s.act.minlen ≤ s.snap.n.toNat →
    s.snap.n.toNat ≤ s.act.maxlen → digitsBelowRadix s →
    ∃ t, exec .ff3Enc s = .next t ∧ sameButResult s t ∧ completedOk s t ∧
      resultStored s t (feistelEnc (blockEncrypt s.act.cs s.act.key) 128 s.act.r
        (if s.snap.tlen = 0 then List.replicate 7 0 else s.snap.tweak.take s.snap.tlen.toNat) (s.message s.snap.n.toNat))

/-- R171: the same of FF3_DEC and FeistelDec. That `snap` is unchanged after the completion is the model's choice (log 25,
DESIGN CHOICE, unsafe), no rule's. -/
def Obligations.Ff3DecDecryptsInPlace : Prop :=
  ∀ s : State, s.Inv → s.act.valid = true → s.act.bs = 128 → ff3TweakAccepted s → s.act.minlen ≤ s.snap.n.toNat →
    s.snap.n.toNat ≤ s.act.maxlen → digitsBelowRadix s →
    ∃ t, exec .ff3Dec s = .next t ∧ sameButResult s t ∧ completedOk s t ∧
      resultStored s t (feistelDec (blockEncrypt s.act.cs s.act.key) 128 s.act.r
        (if s.snap.tlen = 0 then List.replicate 7 0 else s.snap.tweak.take s.snap.tlen.toNat) (s.message s.snap.n.toNat))

/-- R200, R210: BPS_ENC replaces DIGIT[0..L) by BpsEnc of it with M = act.maxlen, for both block sizes. That `snap` is unchanged after
the completion is the model's choice (log 25, DESIGN CHOICE, unsafe), no rule's. -/
def Obligations.BpsEncEncryptsInPlace : Prop :=
  ∀ s : State, s.Inv → s.act.valid = true → bpsTweakAccepted s → s.act.minlen ≤ s.snap.n.toNat → s.snap.n.toNat ≤ s.dbufDepth →
    digitsBelowRadix s →
    ∃ t, exec .bpsEnc s = .next t ∧ sameButResult s t ∧ completedOk s t ∧
      resultStored s t (bpsEncrypt (blockEncrypt s.act.cs s.act.key) s.act.bs s.act.r s.act.maxlen
        (if s.snap.tlen = 0 then List.replicate 8 0 else s.snap.tweak.take 8) (s.message s.snap.n.toNat))

/-- R201, R210: the same of BPS_DEC and BpsDec. That `snap` is unchanged after the completion is the model's choice (log 25,
DESIGN CHOICE, unsafe), no rule's. -/
def Obligations.BpsDecDecryptsInPlace : Prop :=
  ∀ s : State, s.Inv → s.act.valid = true → bpsTweakAccepted s → s.act.minlen ≤ s.snap.n.toNat → s.snap.n.toNat ≤ s.dbufDepth →
    digitsBelowRadix s →
    ∃ t, exec .bpsDec s = .next t ∧ sameButResult s t ∧ completedOk s t ∧
      resultStored s t (bpsDecrypt (blockEncrypt s.act.cs s.act.key) s.act.bs s.act.r s.act.maxlen
        (if s.snap.tlen = 0 then List.replicate 8 0 else s.snap.tweak.take 8) (s.message s.snap.n.toNat))

/-- R182: FF3_ENC and FF3_DEC raise the first failing check, in the rule's order, and change nothing else. -/
def Obligations.Ff3ErrorsInOrder : Prop :=
  ∀ (i : Instr) (s : State), i = .ff3Enc ∨ i = .ff3Dec →
    (s.act.valid = false → endsInError i s 0x02 0) ∧
    (s.act.valid = true →
      (s.act.bs ≠ 128 → endsInError i s 0x20 0) ∧
      (s.act.bs = 128 →
        (¬ff3TweakAccepted s → endsInError i s 0x21 0) ∧
        (ff3TweakAccepted s →
          (s.snap.n.toNat < s.act.minlen ∨ s.act.maxlen < s.snap.n.toNat → endsInError i s 0x22 0) ∧
          (s.act.minlen ≤ s.snap.n.toNat → s.snap.n.toNat ≤ s.act.maxlen →
            ∀ j < s.snap.n.toNat, s.act.r ≤ (s.digit j).toNat → (∀ k < j, (s.digit k).toNat < s.act.r) →
              endsInError i s 0x23 j))))

/-- R211: BPS_ENC and BPS_DEC raise the first failing check, in the rule's order, and change nothing else. -/
def Obligations.BpsErrorsInOrder : Prop :=
  ∀ (i : Instr) (s : State), i = .bpsEnc ∨ i = .bpsDec →
    (s.act.valid = false → endsInError i s 0x02 0) ∧
    (s.act.valid = true →
      (¬bpsTweakAccepted s → endsInError i s 0x21 0) ∧
      (bpsTweakAccepted s →
        (s.snap.n.toNat < s.act.minlen ∨ s.dbufDepth < s.snap.n.toNat → endsInError i s 0x22 0) ∧
        (s.act.minlen ≤ s.snap.n.toNat → s.snap.n.toNat ≤ s.dbufDepth →
          ∀ j < s.snap.n.toNat, s.act.r ≤ (s.digit j).toNat → (∀ k < j, (s.digit k).toNat < s.act.r) →
            endsInError i s 0x23 j)))

/-- R245: an erroring command changes only STATUS, ERRINFO and IRQ_STAT; a failed CONFIGURE also `act` (and the model's free-value
counter, log 10). Inv rules out INTERNAL, the one error that is not precise. -/
def Obligations.ErrorsArePrecise : Prop :=
  ∀ (i : Instr) (s t : State), i ≠ .nop → s.Inv → exec i s = .next t → t.status.err = true →
    t = { s with status := t.status, errInfo := t.errInfo, irqStat := t.irqStat, act := t.act, freeCount := t.freeCount } ∧
    (i ≠ .configure → t.act = s.act ∧ t.freeCount = s.freeCount)

/-- R38, R240, R241: from a good state every command but NOP completes: BUSY falls, exactly one of DONE and ERR is set, ERRCODE is 0
exactly on success, and IRQ_STAT gains DONE_IRQ or ERR_IRQ. -/
def Obligations.EveryCommandCompletes : Prop :=
  ∀ (i : Instr) (s : State), i ≠ .nop → s.Inv →
    ∃ t, exec i s = .next t ∧ t.status.busy = false ∧ t.status.fatal = false ∧ t.status.err = !t.status.done ∧
      (t.status.done = true → t.status.errCode = 0 ∧ t.irqStat = s.irqStat ||| 0b001) ∧
      (t.status.err = true → t.status.errCode ∈ errorCodes ∧ t.irqStat = s.irqStat ||| 0b010)

/-! ## Rules of the whole machine -/

/-- The state after reset is a good one (R270). -/
def Obligations.ResetStateIsGood : Prop := State.reset.Inv

/-- Every step keeps a good state good. -/
def Obligations.StepKeepsGoodStates : Prop := ∀ s t : State, s.Inv → step s = .next t → t.Inv

/-- R60, R61: `act` is written by CONFIGURE, WIPE and reset only. -/
def Obligations.OnlyConfigureWipeAndResetWriteAct : Prop :=
  (∀ (i : Instr) (s t : State), i ≠ .configure → i ≠ .wipe → exec i s = .next t → t.act = s.act) ∧
  (∀ s t : State, hostTurn s = .next t → t.act = s.act) ∧
  ∀ s t : State, step s = .next t → t.act ≠ s.act →
    s.whose = .reset ∨ (s.whose = .engine ∧ (decode s.snap.word = .configure ∨ decode s.snap.word = .wipe))

/-- R38: BUSY rises only by the acceptance of a command other than NOP, and falls only by a completion or reset. -/
def Obligations.BusyChangesOnlyByAcceptanceCompletionReset : Prop :=
  ∀ s t : State, step s = .next t →
    (s.status.busy = false → t.status.busy = true → s.whose = .host ∧ t.snap.word = t.cmd ∧ decode t.cmd ≠ .nop) ∧
    (s.status.busy = true → t.status.busy = false → s.whose = .engine ∨ s.whose = .reset)

/-- R41, R246: FATAL is set only by an internal error of the engine's step, which leaves BUSY = 1, ERR = 1, ERRCODE 0xF0, `act` as it
was, and sets ERR_IRQ and FATAL_IRQ; while it is 1 the engine takes no step and CMD writes are dropped; only reset clears it. -/
def Obligations.FatalStopsTheEngineUntilReset : Prop :=
  (∀ s : State, s.status.fatal = true → engineTurn s = .next s ∧ ∀ w, busWrite 0x010 w s = .next s) ∧
  (∀ s t : State, step s = .next t → s.status.fatal = true → t.status.fatal = false → s.whose = .reset) ∧
  ∀ s t : State, step s = .next t → s.status.fatal = false → t.status.fatal = true →
    s.whose = .engine ∧ t.status.busy = true ∧ t.status.err = true ∧ t.status.done = false ∧ t.status.errCode = 0xF0 ∧
      t.irqStat = s.irqStat ||| 0b110 ∧ t.act = s.act

/-- R42, R247: CMD_OVR and BUSY_ACC are cleared only at the acceptance of a command other than NOP and at reset, an IRQ_STAT bit only by
a host write of 1 to it and at reset. -/
def Obligations.StickyBitsAreClearedOnlyAsStated : Prop :=
  ∀ s t : State, step s = .next t →
    (s.status.cmdOvr = true → t.status.cmdOvr = false →
      s.whose = .reset ∨ (s.whose = .host ∧ s.status.busy = false ∧ t.status.busy = true)) ∧
    (s.status.busyAcc = true → t.status.busyAcc = false →
      s.whose = .reset ∨ (s.whose = .host ∧ s.status.busy = false ∧ t.status.busy = true)) ∧
    ∀ i < 3, s.irqStat.getLsbD i = true → t.irqStat.getLsbD i = false →
      s.whose = .reset ∨ (s.whose = .host ∧ ∃ v rest, s.host = .wr .word 0x080 v :: rest ∧ v.getLsbD i = true)

/-- R270, R271: reset, also while a command runs, leaves every register at its reset value, the digits and keys zero, no
configuration, and the command abandoned. That the host's remaining accesses, the other turns and the depth of the instance are kept is
the model's choice (log 23, DESIGN CHOICE, safe), no rule's. -/
def Obligations.ResetClearsEverything : Prop :=
  ∀ (s : State) (ts : List Turn), s.turns = .reset :: ts → s.dbufDepth ≤ 4096 →
    ∃ t, step s = .next t ∧ t.turns = ts ∧ t.host = s.host ∧ t.dbufDepth = s.dbufDepth ∧
      t.status = ⟨false, false, false, false, false, false, 0⟩ ∧ t.irq = false ∧ t.act.valid = false ∧
      (∀ b ∈ t.act.key, b = 0) ∧ (∀ k : Fin 8, t.keys[k] = 0) ∧ (∀ j, t.digit j = 0) ∧
      (∀ off, off % 4 = 0 → (busRead off t).1 =
        if off = 0x000 then 0x46463331 else if off = 0x004 then 0x00000001
        else if off = 0x008 then 0x001F0000 + BitVec.ofNat 32 s.dbufDepth else 0)

/-- R282: a command in flight in a good state completes at the engine's next turn, which comes at the latest when no other turn is
scheduled (model's choice of schedule, log 6). -/
def Obligations.CommandInFlightCompletes : Prop :=
  ∀ s : State, s.Inv → s.status.busy = true → (s.turns = [] ∨ ∃ ts, s.turns = .engine :: ts) →
    ∃ t, step s = .next t ∧ t.status.busy = false ∧ t.status.err = !t.status.done ∧ t.host = s.host

/-- R110, R275: with no turns scheduled a WAIT is over within two steps, after the command in flight has completed (log 6, log 20). -/
def Obligations.WaitEndsAfterCompletion : Prop :=
  ∀ (s : State) (rest : List HostOp), s.Inv → s.turns = [] → s.host = waitOp :: rest →
    ∃ k ≤ 2, ∃ t, core.run k s = .next t ∧ t.host = rest ∧ t.status.busy = false

/-! ## The algorithm -/

/-- R120: NumRev is Σ X[j]·r^j, and below r^m for digits below r. -/
def Obligations.NumRevIsTheWeightedSum : Prop :=
  ∀ (r : Nat) (x : List Nat), numRev r x = ∑ j ∈ Finset.range x.length, x.getD j 0 * r ^ j ∧
    (digitString r x → numRev r x < r ^ x.length)

/-- R122: NumRev and StrRev are inverse to each other. -/
def Obligations.NumRevAndStrRevAreInverse : Prop :=
  ∀ r m : Nat, 2 ≤ r → 1 ≤ m →
    (∀ x : List Nat, x.length = m → digitString r x → strRev r m (numRev r x) = x) ∧
    ∀ c < r ^ m, numRev r (strRev r m c) = c

/-- R127: the combinations stay in range, undo each other, and the decrypt one is (b − y) mod D. -/
def Obligations.RoundCombinationsUndoEachOther : Prop :=
  ∀ a b y d : Nat, a < d → b < d → y < d →
    combineEnc a y d = (a + y) % d ∧ combineDec b y d = (b + d - y) % d ∧ a + y < 2 * d ∧ b + d - y < 2 * d ∧
    combineEnc a y d < d ∧ combineDec b y d < d ∧
    combineDec (combineEnc a y d) y d = a ∧ combineEnc (combineDec b y d) y d = b ∧
    (combineDec b y d : Int) = ((b : Int) - y) % d

/-- R128: LIMIT is twice the largest k with r^k ≤ 2^(BS−32), and has the values of the rule's table, with r^(LIMIT/2) = 2^(BS−32) for
the radixes it names. -/
def Obligations.LimitIsTheLargestExponent : Prop :=
  (∀ r bs : Nat, 2 ≤ r → bs = 128 ∨ bs = 64 →
    ∃ k, limit r bs = 2 * k ∧ r ^ k ≤ 2 ^ (bs - 32) ∧ ∀ k', r ^ k' ≤ 2 ^ (bs - 32) → k' ≤ k) ∧
  [2, 3, 4, 5, 8, 10, 16, 26, 32, 36, 62].map (fun r => (limit r 128, limit r 64)) =
    [(192, 64), (120, 40), (96, 32), (82, 26), (64, 20), (56, 18), (48, 16), (40, 12), (38, 12), (36, 12), (32, 10)] ∧
  [64, 100, 128, 256, 1000, 1024, 4096, 10000, 32768, 65535, 65536].map (fun r => (limit r 128, limit r 64)) =
    [(32, 10), (28, 8), (26, 8), (24, 8), (18, 6), (18, 6), (16, 4), (14, 4), (12, 4), (12, 4), (12, 4)] ∧
  ∀ r ∈ [2, 3, 4, 5, 8, 10, 16, 26, 32, 36, 62, 64, 100, 128, 256, 1000, 1024, 4096, 10000, 32768, 65535, 65536],
    (r ^ (limit r 128 / 2) = 2 ^ 96 ↔ r ∈ [2, 4, 8, 16, 64, 256, 4096, 65536]) ∧
    (r ^ (limit r 64 / 2) = 2 ^ 32 ↔ r ∈ [2, 4, 16, 256, 65536])

/-- R129: MINOK's formula, and the smallest passing minlen of each radix range. -/
def Obligations.MinokIsTheFormula : Prop :=
  (∀ r minlen : Nat, minok r minlen = true ↔ 2 ≤ minlen ∧ 10 ^ 6 ≤ r ^ minlen) ∧
  ∀ p ∈ [(1000, 65536, 2), (100, 999, 3), (32, 99, 4), (16, 31, 5), (10, 15, 6), (8, 9, 7), (7, 7, 8), (6, 6, 8), (5, 5, 9),
      (4, 4, 10), (3, 3, 13), (2, 2, 20)],
    ∀ r, p.1 ≤ r → r ≤ p.2.1 → minok r p.2.2 = true ∧ ∀ k < p.2.2, minok r k = false

/-- R125: under an accepted configuration both half lengths of a message no longer than maxlen keep r^m ≤ 2^(BS−32), and NumRev of a
half fits the trailer of BS/8 − 4 bytes. -/
def Obligations.HalvesFitTheTrailer : Prop :=
  ∀ (a : Act) (n : Nat), a.Ok → n ≤ a.maxlen →
    a.r ^ halfU n ≤ 2 ^ (a.bs - 32) ∧ a.r ^ halfV n ≤ 2 ^ (a.bs - 32) ∧
    ∀ x, digitString a.r x → x.length = halfU n ∨ x.length = halfV n → numRev a.r x < 256 ^ (a.bs / 8 - 4)

/-- R152, R154: the 7-byte split at bit level, bit 0 the most significant bit of the first byte. -/
def Obligations.SevenByteTweakSplit : Prop :=
  ∀ t : List Byte, t.length = 7 →
    let bit : List Byte → Nat → Bool := fun b k => (byteAt b (k / 8)).getLsbD (7 - k % 8)
    (split7 t).1.length = 4 ∧ (split7 t).2.length = 4 ∧
    (∀ k < 28, bit (split7 t).1 k = bit t k) ∧ (∀ k, 28 ≤ k → k < 32 → bit (split7 t).1 k = false) ∧
    (∀ k < 24, bit (split7 t).2 k = bit t (32 + k)) ∧ (∀ k, 24 ≤ k → k < 28 → bit (split7 t).2 k = bit t (4 + k)) ∧
    (∀ k, 28 ≤ k → k < 32 → bit (split7 t).2 k = false)

/-- R203, R213: the perturbation changes bytes 1 and 5 only, by i mod 256, and counters 256 apart give one tweak. -/
def Obligations.PerturbationIsOneByteCounter : Prop :=
  ∀ (t : List Byte) (i : Nat), t.length = 8 →
    (perturb t i).length = 8 ∧ splitTweak (perturb t i) = ((perturb t i).take 4, (perturb t i).drop 4) ∧ perturb t 0 = t ∧ perturb t (i + 256) = perturb t i ∧
    byteAt (perturb t i) 1 = byteAt t 1 ^^^ BitVec.ofNat 8 i ∧ byteAt (perturb t i) 5 = byteAt t 5 ^^^ BitVec.ofNat 8 i ∧
    ∀ j < 8, j ≠ 1 → j ≠ 5 → byteAt (perturb t i) j = byteAt t j

/-- R49, R156: byte 4k + b of the key is byte b of KEYk, most significant first; the loaded key is its first keylen bytes, reversed
when KREV = 1. -/
def Obligations.KeyIsLoadedFromTheKeyRegisters : Prop :=
  ∀ (keys : Vector Word 8) (cs : Cipher),
    (∀ (k : Fin 8) (b : Nat), b < 4 → byteAt (keyBytes keys) (4 * k.val + b) = keys[k].extractLsb' (24 - 8 * b) 8) ∧
    (loadKey cs false (keyBytes keys)).length = keyLen cs ∧ (loadKey cs true (keyBytes keys)).length = keyLen cs ∧
    ∀ j < keyLen cs, byteAt (loadKey cs false (keyBytes keys)) j = byteAt (keyBytes keys) j ∧
      byteAt (loadKey cs true (keyBytes keys)) j = byteAt (keyBytes keys) (keyLen cs - 1 - j)

/-- R181: FeistelEnc and FeistelDec undo each other, keep the length, and keep every digit below r, whatever the primitive. -/
def Obligations.FeistelRoundTrip : Prop :=
  ∀ (E : List Byte → List Byte) (bs r : Nat) (t : List Byte) (x : List Nat), 2 ≤ r → 2 ≤ x.length → digitString r x →
    feistelDec E bs r t (feistelEnc E bs r t x) = x ∧ feistelEnc E bs r t (feistelDec E bs r t x) = x ∧
    (feistelEnc E bs r t x).length = x.length ∧ digitString r (feistelEnc E bs r t x)

/-- R212: BpsDec undoes BpsEnc, the length is kept, every digit stays below r, and a message of at most M digits is one Feistel call,
whatever the primitive. -/
def Obligations.BpsRoundTrip : Prop :=
  ∀ (E : List Byte → List Byte) (bs r M : Nat) (t : List Byte) (x : List Nat), 2 ≤ r → 2 ≤ M → 2 ≤ x.length → digitString r x →
    bpsDecrypt E bs r M t (bpsEncrypt E bs r M t x) = x ∧ (bpsEncrypt E bs r M t x).length = x.length ∧
    digitString r (bpsEncrypt E bs r M t x) ∧
    (x.length ≤ M → bpsEncrypt E bs r M t x = feistelEnc E bs r t x ∧ bpsDecrypt E bs r M t x = feistelDec E bs r t x)

/-- R134: the limb arithmetic is exact, and faults exactly on overflow. -/
def Obligations.BigAccArithmeticIsExact : Prop :=
  ∀ a b : BigAcc,
    (a.add b).map BigAcc.value = (if a.value + b.value < 2 ^ 96 then some (a.value + b.value) else none) ∧
    (a.sub b).map BigAcc.value = (if b.value ≤ a.value then some (a.value - b.value) else none) ∧
    (∀ x y : Nat, (a.multiplyAdd x y).map BigAcc.value =
      if a.value * x + y < 2 ^ 96 then some (a.value * x + y) else none) ∧
    (a.lt b = true ↔ a.value < b.value) ∧
    (b.value ≠ 0 → (a.divrem b).1.value = a.value / b.value ∧ (a.divrem b).2.value = a.value % b.value)

/-- R126, R135: the shift-and-subtract reducer gives the exact remainder of every 128-bit value for every divisor that fits 96 bits. -/
def Obligations.ShiftSubtractReducerIsExact : Prop :=
  ∀ (x : Nat) (d : BigAcc), x < 2 ^ 128 → d.value ≠ 0 → (reduce128 x d).map BigAcc.value = some (x % d.value)

/-! ## ERRINFO -/

/-- R43: ERRINFO is read at 0x018 and ignores writes; a command that ends with IN_DIGIT leaves there the lowest refused slot, every
other completion 0; acceptance and reset clear it, and nothing else changes it. -/
def Obligations.ErrInfoNamesTheBadDigit : Prop :=
  (∀ (s : State) (v : Word), busRead 0x018 s = (s.errInfo, s) ∧ busWrite 0x018 v s = .next s) ∧
  (∀ (i : Instr) (s t : State), i ≠ .nop → exec i s = .next t →
    (t.status.errCode = 0x23 → ∃ j < s.snap.n.toNat, (busRead 0x018 t).1.toNat = j ∧ s.act.r ≤ (s.digit j).toNat ∧
      ∀ k < j, (s.digit k).toNat < s.act.r) ∧
    (t.status.errCode ≠ 0x23 → (busRead 0x018 t).1 = 0)) ∧
  ∀ s t : State, step s = .next t →
    (s.whose = .reset → (busRead 0x018 t).1 = 0) ∧
    (s.status.busy = false → t.status.busy = true → (busRead 0x018 t).1 = 0) ∧
    ((busRead 0x018 t).1 ≠ (busRead 0x018 s).1 →
      s.whose = .reset ∨ s.whose = .engine ∨ (s.whose = .host ∧ s.status.busy = false ∧ t.status.busy = true))
end

