-- ==== Sys2Proof/Laws/Memory.lean ====
section
/-! SUPPORT. The digit buffer: read after write, every other slot unchanged, and the canonical form kept. -/

namespace Sys2Proof.Machine

variable {m : Memory} {i j k : Nat} {v x : Word} {vs : List Word}

@[simp] theorem Memory.read_nil : Memory.read [] j = 0 := rfl

theorem Memory.wf_nil : Memory.wf [] := ⟨List.Pairwise.nil, by simp⟩

theorem Memory.wf_cons {p : Nat × Word} : Memory.wf (p :: m) ↔ (∀ q ∈ m, p.1 < q.1) ∧ p.2 ≠ 0 ∧ Memory.wf m := by
  simp only [Memory.wf, List.pairwise_cons, List.mem_cons, forall_eq_or_imp]
  tauto

/-- A slot below every listed one holds 0. -/
theorem Memory.read_of_lt (h : ∀ q ∈ m, j < q.1) : m.read j = 0 := by
  induction m with
  | nil => rfl
  | cons p m ih =>
    obtain ⟨k, x⟩ := p
    have hk := h (k, x) (by simp)
    simp only [Memory.read]
    rw [if_neg (by omega)]
    exact ih fun q hq => h q (by simp [hq])

/-- A write lists no slot but its own and those listed before. -/
theorem Memory.mem_write {p : Nat × Word} (h : p ∈ m.write j v) : p = (j, v) ∧ v ≠ 0 ∨ p ∈ m := by
  induction m with
  | nil =>
    simp only [Memory.write] at h
    split at h <;> simp_all
  | cons q m ih =>
    obtain ⟨k, x⟩ := q
    simp only [Memory.write] at h
    split_ifs at h with h1 h2 h3 h4
    · rcases List.mem_cons.1 h with rfl | h
      · simp
      · rcases ih h with h | h
        · exact .inl h
        · exact .inr (List.mem_cons_of_mem _ h)
    all_goals simp only [List.mem_cons] at h ⊢; tauto

/-- Every write keeps the canonical form. -/
theorem Memory.wf_write (h : m.wf) : (m.write j v).wf := by
  induction m with
  | nil =>
    simp only [Memory.write]
    split
    · exact Memory.wf_nil
    · exact Memory.wf_cons.2 ⟨by simp, ‹_›, Memory.wf_nil⟩
  | cons q m ih =>
    obtain ⟨k, x⟩ := q
    obtain ⟨hlt, hx, hm⟩ := Memory.wf_cons.1 h
    simp only [Memory.write]
    split_ifs with h1 h2 h3 h4
    · refine Memory.wf_cons.2 ⟨fun p hp => ?_, hx, ih hm⟩
      rcases Memory.mem_write hp with ⟨rfl, -⟩ | hp
      exacts [h1, hlt p hp]
    · exact hm
    · exact Memory.wf_cons.2 ⟨fun p hp => h2 ▸ hlt p hp, h3, hm⟩
    · exact h
    · refine Memory.wf_cons.2 ⟨fun p hp => ?_, h4, h⟩
      rcases List.mem_cons.1 hp with rfl | hp
      · show j < k
        omega
      · have := hlt p hp
        show j < p.1
        simp only at this
        omega

/-- Reading back: the written slot holds the written word, every other slot its old one. -/
theorem Memory.read_write (h : m.wf) : (m.write j v).read i = if i = j then v else m.read i := by
  induction m with
  | nil =>
    by_cases hv : v = 0#32
    · simp [Memory.write, Memory.read, hv]
    · by_cases hi : i = j
      · simp [Memory.write, Memory.read, hv, hi]
      · simp [Memory.write, Memory.read, hv, hi, Ne.symm hi]
  | cons q m ih =>
    obtain ⟨k, x⟩ := q
    obtain ⟨hlt, -, hm⟩ := Memory.wf_cons.1 h
    have below : ∀ l ≤ k, Memory.read m l = 0 := fun l hl => Memory.read_of_lt fun q hq => lt_of_le_of_lt hl (hlt q hq)
    rcases lt_trichotomy k j with hkj | rfl | hkj
    · simp only [Memory.write, if_pos hkj, Memory.read, ih hm]
      by_cases hi : i = j
      · rw [if_neg (by omega), if_pos hi, if_pos hi]
      · simp only [if_neg hi]
    · simp only [Memory.write, lt_irrefl, if_false, if_true]
      by_cases hv : v = 0#32 <;> by_cases hi : i = k
      · simp [hv, hi, below k le_rfl]
      · simp [hv, hi, Memory.read, Ne.symm hi]
      · simp [hv, hi, Memory.read]
      · simp [hv, hi, Memory.read, Ne.symm hi]
    · have h1 : ¬ k < j := by omega
      have h2 : ¬ k = j := by omega
      by_cases hv : v = 0#32 <;> by_cases hi : i = j
      · subst hi
        simp [Memory.write, h1, h2, hv, Memory.read, below i (by omega)]
      · simp [Memory.write, h1, h2, hv, hi]
      · subst hi
        simp [Memory.write, h1, h2, hv, Memory.read]
      · simp [Memory.write, h1, h2, hv, hi, Memory.read, Ne.symm hi]

theorem Memory.wf_writeFrom (h : m.wf) : (m.writeFrom j vs).wf := by
  induction vs generalizing m j with
  | nil => exact h
  | cons v vs ih => exact ih (Memory.wf_write h)

/-- Reading back a written run of slots. -/
theorem Memory.read_writeFrom (h : m.wf) :
    (m.writeFrom j vs).read i = if j ≤ i ∧ i < j + vs.length then vs.getD (i - j) 0 else m.read i := by
  induction vs generalizing m j with
  | nil =>
    rw [if_neg (by simp)]
    rfl
  | cons v vs ih =>
    simp only [Memory.writeFrom]
    rw [ih (Memory.wf_write h), Memory.read_write h]
    simp only [List.length_cons]
    by_cases h1 : i = j
    · subst h1
      rw [if_neg (by omega), if_pos rfl, if_pos (by omega)]
      simp
    · by_cases h2 : j + 1 ≤ i ∧ i < j + 1 + vs.length
      · rw [if_pos h2, if_pos (by omega), show i - j = (i - (j + 1)) + 1 by omega, List.getD_cons_succ]
      · rw [if_neg h2, if_neg h1, if_neg (by omega)]

/-- A write below `d` lists only slots below `d`. -/
theorem Memory.write_in {d : Nat} (h : ∀ p ∈ m, p.1 < d) (hj : j < d) : ∀ p ∈ m.write j v, p.1 < d := by
  intro p hp
  rcases Memory.mem_write hp with ⟨rfl, -⟩ | hp
  exacts [hj, h p hp]

theorem Memory.writeFrom_in {d : Nat} (h : ∀ p ∈ m, p.1 < d) (hj : j + vs.length ≤ d) :
    ∀ p ∈ m.writeFrom j vs, p.1 < d := by
  induction vs generalizing m j with
  | nil => exact h
  | cons v vs ih =>
    simp only [List.length_cons] at hj
    exact ih (Memory.write_in h (by omega)) (by omega)

end Sys2Proof.Machine
end

