-- ==== Sys2Proof/Laws/State.lean ====
section
/-! SUPPORT. One lemma per field per update of State, and the flag updates' fields: no proof unfolds a record update. -/

namespace Sys2Proof.Machine

@[simp] theorem completeOk_dbufDepth (s : State) : (completeOk s).dbufDepth = s.dbufDepth := rfl
@[simp] theorem completeOk_cmd (s : State) : (completeOk s).cmd = s.cmd := rfl
@[simp] theorem completeOk_status (s : State) : (completeOk s).status = s.status.onOk := rfl
@[simp] theorem completeOk_errInfo (s : State) : (completeOk s).errInfo = 0 := rfl
@[simp] theorem completeOk_radix (s : State) : (completeOk s).radix = s.radix := rfl
@[simp] theorem completeOk_minlen (s : State) : (completeOk s).minlen = s.minlen := rfl
@[simp] theorem completeOk_maxlen (s : State) : (completeOk s).maxlen = s.maxlen := rfl
@[simp] theorem completeOk_cfgr (s : State) : (completeOk s).cfgr = s.cfgr := rfl
@[simp] theorem completeOk_msglen (s : State) : (completeOk s).msglen = s.msglen := rfl
@[simp] theorem completeOk_twctl (s : State) : (completeOk s).twctl = s.twctl := rfl
@[simp] theorem completeOk_tweak0 (s : State) : (completeOk s).tweak0 = s.tweak0 := rfl
@[simp] theorem completeOk_tweak1 (s : State) : (completeOk s).tweak1 = s.tweak1 := rfl
@[simp] theorem completeOk_keys (s : State) : (completeOk s).keys = s.keys := rfl
@[simp] theorem completeOk_irqStat (s : State) : (completeOk s).irqStat = s.irqStat ||| doneIrq := rfl
@[simp] theorem completeOk_irqEn (s : State) : (completeOk s).irqEn = s.irqEn := rfl
@[simp] theorem completeOk_digits (s : State) : (completeOk s).digits = s.digits := rfl
@[simp] theorem completeOk_act (s : State) : (completeOk s).act = s.act := rfl
@[simp] theorem completeOk_snap (s : State) : (completeOk s).snap = s.snap := rfl
@[simp] theorem completeOk_host (s : State) : (completeOk s).host = s.host := rfl
@[simp] theorem completeOk_turns (s : State) : (completeOk s).turns = s.turns := rfl
@[simp] theorem completeOk_reads (s : State) : (completeOk s).reads = s.reads := rfl
@[simp] theorem completeOk_freeCount (s : State) : (completeOk s).freeCount = s.freeCount := rfl

@[simp] theorem raiseError_dbufDepth (e : ErrName) (k : Nat) (s : State) : (raiseError e k s).dbufDepth = s.dbufDepth := rfl
@[simp] theorem raiseError_cmd (e : ErrName) (k : Nat) (s : State) : (raiseError e k s).cmd = s.cmd := rfl
@[simp] theorem raiseError_status (e : ErrName) (k : Nat) (s : State) : (raiseError e k s).status = s.status.onError e := rfl
@[simp] theorem raiseError_errInfo (e : ErrName) (k : Nat) (s : State) : (raiseError e k s).errInfo = BitVec.ofNat 32 k := rfl
@[simp] theorem raiseError_radix (e : ErrName) (k : Nat) (s : State) : (raiseError e k s).radix = s.radix := rfl
@[simp] theorem raiseError_minlen (e : ErrName) (k : Nat) (s : State) : (raiseError e k s).minlen = s.minlen := rfl
@[simp] theorem raiseError_maxlen (e : ErrName) (k : Nat) (s : State) : (raiseError e k s).maxlen = s.maxlen := rfl
@[simp] theorem raiseError_cfgr (e : ErrName) (k : Nat) (s : State) : (raiseError e k s).cfgr = s.cfgr := rfl
@[simp] theorem raiseError_msglen (e : ErrName) (k : Nat) (s : State) : (raiseError e k s).msglen = s.msglen := rfl
@[simp] theorem raiseError_twctl (e : ErrName) (k : Nat) (s : State) : (raiseError e k s).twctl = s.twctl := rfl
@[simp] theorem raiseError_tweak0 (e : ErrName) (k : Nat) (s : State) : (raiseError e k s).tweak0 = s.tweak0 := rfl
@[simp] theorem raiseError_tweak1 (e : ErrName) (k : Nat) (s : State) : (raiseError e k s).tweak1 = s.tweak1 := rfl
@[simp] theorem raiseError_keys (e : ErrName) (k : Nat) (s : State) : (raiseError e k s).keys = s.keys := rfl
@[simp] theorem raiseError_irqStat (e : ErrName) (k : Nat) (s : State) : (raiseError e k s).irqStat = s.irqStat ||| errIrq := rfl
@[simp] theorem raiseError_irqEn (e : ErrName) (k : Nat) (s : State) : (raiseError e k s).irqEn = s.irqEn := rfl
@[simp] theorem raiseError_digits (e : ErrName) (k : Nat) (s : State) : (raiseError e k s).digits = s.digits := rfl
@[simp] theorem raiseError_act (e : ErrName) (k : Nat) (s : State) : (raiseError e k s).act = s.act := rfl
@[simp] theorem raiseError_snap (e : ErrName) (k : Nat) (s : State) : (raiseError e k s).snap = s.snap := rfl
@[simp] theorem raiseError_host (e : ErrName) (k : Nat) (s : State) : (raiseError e k s).host = s.host := rfl
@[simp] theorem raiseError_turns (e : ErrName) (k : Nat) (s : State) : (raiseError e k s).turns = s.turns := rfl
@[simp] theorem raiseError_reads (e : ErrName) (k : Nat) (s : State) : (raiseError e k s).reads = s.reads := rfl
@[simp] theorem raiseError_freeCount (e : ErrName) (k : Nat) (s : State) : (raiseError e k s).freeCount = s.freeCount := rfl

@[simp] theorem internalError_dbufDepth (n : Nat) (s : State) : (internalError n s).dbufDepth = s.dbufDepth := rfl
@[simp] theorem internalError_cmd (n : Nat) (s : State) : (internalError n s).cmd = s.cmd := rfl
@[simp] theorem internalError_status (n : Nat) (s : State) : (internalError n s).status = s.status.onInternal := rfl
@[simp] theorem internalError_errInfo (n : Nat) (s : State) : (internalError n s).errInfo = 0 := rfl
@[simp] theorem internalError_radix (n : Nat) (s : State) : (internalError n s).radix = s.radix := rfl
@[simp] theorem internalError_minlen (n : Nat) (s : State) : (internalError n s).minlen = s.minlen := rfl
@[simp] theorem internalError_maxlen (n : Nat) (s : State) : (internalError n s).maxlen = s.maxlen := rfl
@[simp] theorem internalError_cfgr (n : Nat) (s : State) : (internalError n s).cfgr = s.cfgr := rfl
@[simp] theorem internalError_msglen (n : Nat) (s : State) : (internalError n s).msglen = s.msglen := rfl
@[simp] theorem internalError_twctl (n : Nat) (s : State) : (internalError n s).twctl = s.twctl := rfl
@[simp] theorem internalError_tweak0 (n : Nat) (s : State) : (internalError n s).tweak0 = s.tweak0 := rfl
@[simp] theorem internalError_tweak1 (n : Nat) (s : State) : (internalError n s).tweak1 = s.tweak1 := rfl
@[simp] theorem internalError_keys (n : Nat) (s : State) : (internalError n s).keys = s.keys := rfl
@[simp] theorem internalError_irqStat (n : Nat) (s : State) : (internalError n s).irqStat = s.irqStat ||| errIrq ||| fatalIrq := rfl
@[simp] theorem internalError_irqEn (n : Nat) (s : State) : (internalError n s).irqEn = s.irqEn := rfl
@[simp] theorem internalError_digits (n : Nat) (s : State) : (internalError n s).digits = s.digits.writeFrom 0 ((List.range n).map fun j => Config.freeWord (s.freeCount + j)) := rfl
@[simp] theorem internalError_act (n : Nat) (s : State) : (internalError n s).act = s.act := rfl
@[simp] theorem internalError_snap (n : Nat) (s : State) : (internalError n s).snap = s.snap := rfl
@[simp] theorem internalError_host (n : Nat) (s : State) : (internalError n s).host = s.host := rfl
@[simp] theorem internalError_turns (n : Nat) (s : State) : (internalError n s).turns = s.turns := rfl
@[simp] theorem internalError_reads (n : Nat) (s : State) : (internalError n s).reads = s.reads := rfl
@[simp] theorem internalError_freeCount (n : Nat) (s : State) : (internalError n s).freeCount = s.freeCount + n := rfl

@[simp] theorem storeMessage_dbufDepth (s : State) (y : List Nat) : (s.storeMessage y).dbufDepth = s.dbufDepth := rfl
@[simp] theorem storeMessage_cmd (s : State) (y : List Nat) : (s.storeMessage y).cmd = s.cmd := rfl
@[simp] theorem storeMessage_status (s : State) (y : List Nat) : (s.storeMessage y).status = s.status := rfl
@[simp] theorem storeMessage_errInfo (s : State) (y : List Nat) : (s.storeMessage y).errInfo = s.errInfo := rfl
@[simp] theorem storeMessage_radix (s : State) (y : List Nat) : (s.storeMessage y).radix = s.radix := rfl
@[simp] theorem storeMessage_minlen (s : State) (y : List Nat) : (s.storeMessage y).minlen = s.minlen := rfl
@[simp] theorem storeMessage_maxlen (s : State) (y : List Nat) : (s.storeMessage y).maxlen = s.maxlen := rfl
@[simp] theorem storeMessage_cfgr (s : State) (y : List Nat) : (s.storeMessage y).cfgr = s.cfgr := rfl
@[simp] theorem storeMessage_msglen (s : State) (y : List Nat) : (s.storeMessage y).msglen = s.msglen := rfl
@[simp] theorem storeMessage_twctl (s : State) (y : List Nat) : (s.storeMessage y).twctl = s.twctl := rfl
@[simp] theorem storeMessage_tweak0 (s : State) (y : List Nat) : (s.storeMessage y).tweak0 = s.tweak0 := rfl
@[simp] theorem storeMessage_tweak1 (s : State) (y : List Nat) : (s.storeMessage y).tweak1 = s.tweak1 := rfl
@[simp] theorem storeMessage_keys (s : State) (y : List Nat) : (s.storeMessage y).keys = s.keys := rfl
@[simp] theorem storeMessage_irqStat (s : State) (y : List Nat) : (s.storeMessage y).irqStat = s.irqStat := rfl
@[simp] theorem storeMessage_irqEn (s : State) (y : List Nat) : (s.storeMessage y).irqEn = s.irqEn := rfl
@[simp] theorem storeMessage_digits (s : State) (y : List Nat) : (s.storeMessage y).digits = s.digits.writeFrom 0 (y.map (BitVec.ofNat 32)) := rfl
@[simp] theorem storeMessage_act (s : State) (y : List Nat) : (s.storeMessage y).act = s.act := rfl
@[simp] theorem storeMessage_snap (s : State) (y : List Nat) : (s.storeMessage y).snap = s.snap := rfl
@[simp] theorem storeMessage_host (s : State) (y : List Nat) : (s.storeMessage y).host = s.host := rfl
@[simp] theorem storeMessage_turns (s : State) (y : List Nat) : (s.storeMessage y).turns = s.turns := rfl
@[simp] theorem storeMessage_reads (s : State) (y : List Nat) : (s.storeMessage y).reads = s.reads := rfl
@[simp] theorem storeMessage_freeCount (s : State) (y : List Nat) : (s.storeMessage y).freeCount = s.freeCount := rfl

@[simp] theorem accept_dbufDepth (w : Word) (s : State) : (accept w s).dbufDepth = s.dbufDepth := rfl
@[simp] theorem accept_cmd (w : Word) (s : State) : (accept w s).cmd = w := rfl
@[simp] theorem accept_status (w : Word) (s : State) : (accept w s).status = s.status.onAccept := rfl
@[simp] theorem accept_errInfo (w : Word) (s : State) : (accept w s).errInfo = 0 := rfl
@[simp] theorem accept_radix (w : Word) (s : State) : (accept w s).radix = s.radix := rfl
@[simp] theorem accept_minlen (w : Word) (s : State) : (accept w s).minlen = s.minlen := rfl
@[simp] theorem accept_maxlen (w : Word) (s : State) : (accept w s).maxlen = s.maxlen := rfl
@[simp] theorem accept_cfgr (w : Word) (s : State) : (accept w s).cfgr = s.cfgr := rfl
@[simp] theorem accept_msglen (w : Word) (s : State) : (accept w s).msglen = s.msglen := rfl
@[simp] theorem accept_twctl (w : Word) (s : State) : (accept w s).twctl = s.twctl := rfl
@[simp] theorem accept_tweak0 (w : Word) (s : State) : (accept w s).tweak0 = s.tweak0 := rfl
@[simp] theorem accept_tweak1 (w : Word) (s : State) : (accept w s).tweak1 = s.tweak1 := rfl
@[simp] theorem accept_keys (w : Word) (s : State) : (accept w s).keys = s.keys := rfl
@[simp] theorem accept_irqStat (w : Word) (s : State) : (accept w s).irqStat = s.irqStat := rfl
@[simp] theorem accept_irqEn (w : Word) (s : State) : (accept w s).irqEn = s.irqEn := rfl
@[simp] theorem accept_digits (w : Word) (s : State) : (accept w s).digits = s.digits := rfl
@[simp] theorem accept_act (w : Word) (s : State) : (accept w s).act = s.act := rfl
@[simp] theorem accept_snap (w : Word) (s : State) : (accept w s).snap = sample w s := rfl
@[simp] theorem accept_host (w : Word) (s : State) : (accept w s).host = s.host := rfl
@[simp] theorem accept_turns (w : Word) (s : State) : (accept w s).turns = s.turns := rfl
@[simp] theorem accept_reads (w : Word) (s : State) : (accept w s).reads = s.reads := rfl
@[simp] theorem accept_freeCount (w : Word) (s : State) : (accept w s).freeCount = s.freeCount := rfl

@[simp] theorem setBusyAcc_dbufDepth (s : State) : s.setBusyAcc.dbufDepth = s.dbufDepth := rfl
@[simp] theorem setBusyAcc_cmd (s : State) : s.setBusyAcc.cmd = s.cmd := rfl
@[simp] theorem setBusyAcc_status (s : State) : s.setBusyAcc.status = { s.status with busyAcc := true } := rfl
@[simp] theorem setBusyAcc_errInfo (s : State) : s.setBusyAcc.errInfo = s.errInfo := rfl
@[simp] theorem setBusyAcc_radix (s : State) : s.setBusyAcc.radix = s.radix := rfl
@[simp] theorem setBusyAcc_minlen (s : State) : s.setBusyAcc.minlen = s.minlen := rfl
@[simp] theorem setBusyAcc_maxlen (s : State) : s.setBusyAcc.maxlen = s.maxlen := rfl
@[simp] theorem setBusyAcc_cfgr (s : State) : s.setBusyAcc.cfgr = s.cfgr := rfl
@[simp] theorem setBusyAcc_msglen (s : State) : s.setBusyAcc.msglen = s.msglen := rfl
@[simp] theorem setBusyAcc_twctl (s : State) : s.setBusyAcc.twctl = s.twctl := rfl
@[simp] theorem setBusyAcc_tweak0 (s : State) : s.setBusyAcc.tweak0 = s.tweak0 := rfl
@[simp] theorem setBusyAcc_tweak1 (s : State) : s.setBusyAcc.tweak1 = s.tweak1 := rfl
@[simp] theorem setBusyAcc_keys (s : State) : s.setBusyAcc.keys = s.keys := rfl
@[simp] theorem setBusyAcc_irqStat (s : State) : s.setBusyAcc.irqStat = s.irqStat := rfl
@[simp] theorem setBusyAcc_irqEn (s : State) : s.setBusyAcc.irqEn = s.irqEn := rfl
@[simp] theorem setBusyAcc_digits (s : State) : s.setBusyAcc.digits = s.digits := rfl
@[simp] theorem setBusyAcc_act (s : State) : s.setBusyAcc.act = s.act := rfl
@[simp] theorem setBusyAcc_snap (s : State) : s.setBusyAcc.snap = s.snap := rfl
@[simp] theorem setBusyAcc_host (s : State) : s.setBusyAcc.host = s.host := rfl
@[simp] theorem setBusyAcc_turns (s : State) : s.setBusyAcc.turns = s.turns := rfl
@[simp] theorem setBusyAcc_reads (s : State) : s.setBusyAcc.reads = s.reads := rfl
@[simp] theorem setBusyAcc_freeCount (s : State) : s.setBusyAcc.freeCount = s.freeCount := rfl

@[simp] theorem observe_dbufDepth (s : State) (off : Nat) (v : Word) : (s.observe off v).dbufDepth = s.dbufDepth := rfl
@[simp] theorem observe_cmd (s : State) (off : Nat) (v : Word) : (s.observe off v).cmd = s.cmd := rfl
@[simp] theorem observe_status (s : State) (off : Nat) (v : Word) : (s.observe off v).status = s.status := rfl
@[simp] theorem observe_errInfo (s : State) (off : Nat) (v : Word) : (s.observe off v).errInfo = s.errInfo := rfl
@[simp] theorem observe_radix (s : State) (off : Nat) (v : Word) : (s.observe off v).radix = s.radix := rfl
@[simp] theorem observe_minlen (s : State) (off : Nat) (v : Word) : (s.observe off v).minlen = s.minlen := rfl
@[simp] theorem observe_maxlen (s : State) (off : Nat) (v : Word) : (s.observe off v).maxlen = s.maxlen := rfl
@[simp] theorem observe_cfgr (s : State) (off : Nat) (v : Word) : (s.observe off v).cfgr = s.cfgr := rfl
@[simp] theorem observe_msglen (s : State) (off : Nat) (v : Word) : (s.observe off v).msglen = s.msglen := rfl
@[simp] theorem observe_twctl (s : State) (off : Nat) (v : Word) : (s.observe off v).twctl = s.twctl := rfl
@[simp] theorem observe_tweak0 (s : State) (off : Nat) (v : Word) : (s.observe off v).tweak0 = s.tweak0 := rfl
@[simp] theorem observe_tweak1 (s : State) (off : Nat) (v : Word) : (s.observe off v).tweak1 = s.tweak1 := rfl
@[simp] theorem observe_keys (s : State) (off : Nat) (v : Word) : (s.observe off v).keys = s.keys := rfl
@[simp] theorem observe_irqStat (s : State) (off : Nat) (v : Word) : (s.observe off v).irqStat = s.irqStat := rfl
@[simp] theorem observe_irqEn (s : State) (off : Nat) (v : Word) : (s.observe off v).irqEn = s.irqEn := rfl
@[simp] theorem observe_digits (s : State) (off : Nat) (v : Word) : (s.observe off v).digits = s.digits := rfl
@[simp] theorem observe_act (s : State) (off : Nat) (v : Word) : (s.observe off v).act = s.act := rfl
@[simp] theorem observe_snap (s : State) (off : Nat) (v : Word) : (s.observe off v).snap = s.snap := rfl
@[simp] theorem observe_host (s : State) (off : Nat) (v : Word) : (s.observe off v).host = s.host := rfl
@[simp] theorem observe_turns (s : State) (off : Nat) (v : Word) : (s.observe off v).turns = s.turns := rfl
@[simp] theorem observe_reads (s : State) (off : Nat) (v : Word) : (s.observe off v).reads = (off, v) :: s.reads := rfl
@[simp] theorem observe_freeCount (s : State) (off : Nat) (v : Word) : (s.observe off v).freeCount = s.freeCount := rfl

@[simp] theorem resetEngine_dbufDepth (s : State) : (resetEngine s).dbufDepth = s.dbufDepth := rfl
@[simp] theorem resetEngine_cmd (s : State) : (resetEngine s).cmd = 0 := rfl
@[simp] theorem resetEngine_status (s : State) : (resetEngine s).status = ⟨false, false, false, false, false, false, 0⟩ := rfl
@[simp] theorem resetEngine_errInfo (s : State) : (resetEngine s).errInfo = 0 := rfl
@[simp] theorem resetEngine_radix (s : State) : (resetEngine s).radix = 0 := rfl
@[simp] theorem resetEngine_minlen (s : State) : (resetEngine s).minlen = 0 := rfl
@[simp] theorem resetEngine_maxlen (s : State) : (resetEngine s).maxlen = 0 := rfl
@[simp] theorem resetEngine_cfgr (s : State) : (resetEngine s).cfgr = ⟨0, false, false⟩ := rfl
@[simp] theorem resetEngine_msglen (s : State) : (resetEngine s).msglen = 0 := rfl
@[simp] theorem resetEngine_twctl (s : State) : (resetEngine s).twctl = 0 := rfl
@[simp] theorem resetEngine_tweak0 (s : State) : (resetEngine s).tweak0 = 0 := rfl
@[simp] theorem resetEngine_tweak1 (s : State) : (resetEngine s).tweak1 = 0 := rfl
@[simp] theorem resetEngine_keys (s : State) : (resetEngine s).keys = Vector.replicate 8 0 := rfl
@[simp] theorem resetEngine_irqStat (s : State) : (resetEngine s).irqStat = 0 := rfl
@[simp] theorem resetEngine_irqEn (s : State) : (resetEngine s).irqEn = 0 := rfl
@[simp] theorem resetEngine_digits (s : State) : (resetEngine s).digits = [] := rfl
@[simp] theorem resetEngine_act (s : State) : (resetEngine s).act = State.reset.act := rfl
@[simp] theorem resetEngine_snap (s : State) : (resetEngine s).snap = State.reset.snap := rfl
@[simp] theorem resetEngine_host (s : State) : (resetEngine s).host = s.host := rfl
@[simp] theorem resetEngine_turns (s : State) : (resetEngine s).turns = s.turns := rfl
@[simp] theorem resetEngine_reads (s : State) : (resetEngine s).reads = s.reads := rfl
@[simp] theorem resetEngine_freeCount (s : State) : (resetEngine s).freeCount = s.freeCount := rfl

@[simp] theorem Status.onAccept_busy (t : Status) : t.onAccept.busy = true := rfl
@[simp] theorem Status.onAccept_done (t : Status) : t.onAccept.done = false := rfl
@[simp] theorem Status.onAccept_err (t : Status) : t.onAccept.err = false := rfl
@[simp] theorem Status.onAccept_fatal (t : Status) : t.onAccept.fatal = t.fatal := rfl
@[simp] theorem Status.onAccept_cmdOvr (t : Status) : t.onAccept.cmdOvr = false := rfl
@[simp] theorem Status.onAccept_busyAcc (t : Status) : t.onAccept.busyAcc = false := rfl
@[simp] theorem Status.onAccept_errCode (t : Status) : t.onAccept.errCode = 0 := rfl

@[simp] theorem Status.onOk_busy (t : Status) : t.onOk.busy = false := rfl
@[simp] theorem Status.onOk_done (t : Status) : t.onOk.done = true := rfl
@[simp] theorem Status.onOk_err (t : Status) : t.onOk.err = false := rfl
@[simp] theorem Status.onOk_fatal (t : Status) : t.onOk.fatal = t.fatal := rfl
@[simp] theorem Status.onOk_cmdOvr (t : Status) : t.onOk.cmdOvr = t.cmdOvr := rfl
@[simp] theorem Status.onOk_busyAcc (t : Status) : t.onOk.busyAcc = t.busyAcc := rfl
@[simp] theorem Status.onOk_errCode (t : Status) : t.onOk.errCode = 0 := rfl

@[simp] theorem Status.onError_busy (e : ErrName) (t : Status) : (t.onError e).busy = false := rfl
@[simp] theorem Status.onError_done (e : ErrName) (t : Status) : (t.onError e).done = false := rfl
@[simp] theorem Status.onError_err (e : ErrName) (t : Status) : (t.onError e).err = true := rfl
@[simp] theorem Status.onError_fatal (e : ErrName) (t : Status) : (t.onError e).fatal = t.fatal := rfl
@[simp] theorem Status.onError_cmdOvr (e : ErrName) (t : Status) : (t.onError e).cmdOvr = t.cmdOvr := rfl
@[simp] theorem Status.onError_busyAcc (e : ErrName) (t : Status) : (t.onError e).busyAcc = t.busyAcc := rfl
@[simp] theorem Status.onError_errCode (e : ErrName) (t : Status) : (t.onError e).errCode = e.code := rfl

@[simp] theorem Status.onInternal_busy (t : Status) : t.onInternal.busy = t.busy := rfl
@[simp] theorem Status.onInternal_done (t : Status) : t.onInternal.done = false := rfl
@[simp] theorem Status.onInternal_err (t : Status) : t.onInternal.err = true := rfl
@[simp] theorem Status.onInternal_fatal (t : Status) : t.onInternal.fatal = true := rfl
@[simp] theorem Status.onInternal_cmdOvr (t : Status) : t.onInternal.cmdOvr = t.cmdOvr := rfl
@[simp] theorem Status.onInternal_busyAcc (t : Status) : t.onInternal.busyAcc = t.busyAcc := rfl
@[simp] theorem Status.onInternal_errCode (t : Status) : t.onInternal.errCode = ErrName.internal.code := rfl

end Sys2Proof.Machine
end

