-- ==== Sys2Proof/Laws/Bus.lean ====
section
/-! SUPPORT. What an offset names, and everything a bus access, a CMD write and a host turn can do. -/

namespace Sys2Proof.Machine

variable {s t : State} {off j depth : Nat} {v w : Word}

/-- An offset that is no row of the control registers' table. -/
theorem controlRegs_lookup_none (h : off ∉ controlRegs.map Prod.fst) : controlRegs.lookup off = none := by
  rw [List.lookup_eq_none_iff]
  intro p hp
  by_contra hc
  have : off = p.1 := by simpa using hc
  exact h (this ▸ List.mem_map_of_mem hp)

/-- A DIGIT slot's offset names it (R50). -/
theorem regAt_digit (h : j < depth) : regAt depth (0x1000 + 4 * j) = .digit j := by
  have h0 : 0x1000 + 4 * j ∉ controlRegs.map Prod.fst := by
    intro h
    have : ∀ k ∈ controlRegs.map Prod.fst, k < 0x1000 := by decide
    exact absurd (this _ h) (by omega)
  rw [regAt, controlRegs_lookup_none h0]
  dsimp only
  rw [if_pos (by omega)]
  congr 1
  omega

/-- Reserved offsets (R53). -/
theorem regAt_reserved (h : off ∉ controlRegs.map Prod.fst) (hd : off < 0x1000 ∨ 0x1000 + 4 * depth ≤ off) :
    regAt depth off = .reserved := by
  rw [regAt, controlRegs_lookup_none h]
  dsimp only
  rw [if_neg (by omega)]

/-- Only the DIGIT window names a digit slot, and only an existing one. -/
theorem lt_of_regAt_digit (h : regAt depth off = .digit j) : j < depth := by
  unfold regAt at h
  split at h
  · rename_i reg hreg
    have hall : ∀ p ∈ controlRegs, ∀ k, p.2 ≠ .digit k := by
      intro p hp k
      have : (controlRegs.all fun q => match q.2 with | .digit _ => false | _ => true) = true := by decide
      have := List.all_eq_true.1 this p hp
      intro hk
      rw [hk] at this
      simp at this
    obtain ⟨l₁, l₂, hl, -⟩ := List.lookup_eq_some_iff.1 hreg
    exact absurd h (hall (off, reg) (by rw [hl]; simp) j)
  · split at h
    · injection h with h
      omega
    · cases h

/-- A write to any register but CMD stores, clears or drops; it never starts a command. -/
theorem busWrite_other (h : regAt s.dbufDepth off ≠ .cmd) : busWrite off v s = .next (s.writeReg v (regAt s.dbufDepth off)) := by
  unfold busWrite
  split
  · exact absurd ‹_› h
  · rfl

theorem busWrite_cmd (h : regAt s.dbufDepth off = .cmd) : busWrite off v s = writeCmd v s := by
  unfold busWrite
  rw [h]

/-- Everything a CMD write can do (R35, R36, R220). -/
theorem writeCmd_cases :
    (s.status.fatal = true ∧ writeCmd w s = .next s) ∨
    (s.status.fatal = false ∧ s.status.busy = true ∧ writeCmd w s = .next { s with status := { s.status with cmdOvr := true } }) ∨
    (s.status.fatal = false ∧ s.status.busy = false ∧ decode w = .nop ∧ writeCmd w s = .next { s with cmd := 0 }) ∨
    (s.status.fatal = false ∧ s.status.busy = false ∧ decode w ≠ .nop ∧ writeCmd w s = .next (accept w s)) := by
  unfold writeCmd
  cases hf : s.status.fatal <;> cases hb : s.status.busy
  · by_cases hn : decode w = .nop
    · exact .inr (.inr (.inl ⟨rfl, rfl, hn, by simp [hn, exec, execNop]⟩))
    · exact .inr (.inr (.inr ⟨rfl, rfl, hn, by simp [hn]⟩))
  · exact .inr (.inl ⟨rfl, rfl, by simp⟩)
  · exact .inl ⟨rfl, by simp⟩
  · exact .inl ⟨rfl, by simp⟩

/-- Everything a bus write can do: a register write, or a CMD write. It always ends in a next state. -/
theorem busWrite_cases :
    (regAt s.dbufDepth off ≠ .cmd ∧ busWrite off v s = .next (s.writeReg v (regAt s.dbufDepth off))) ∨
    (regAt s.dbufDepth off = .cmd ∧ busWrite off v s = writeCmd v s) := by
  by_cases h : regAt s.dbufDepth off = .cmd
  · exact .inr ⟨h, busWrite_cmd h⟩
  · exact .inl ⟨h, busWrite_other h⟩

/-- Everything a read can change: nothing, or BUSY_ACC (R74). -/
theorem afterRead_cases (reg : Reg) :
    s.afterRead reg = s ∨ (s.status.busy = true ∧ (∃ j, reg = .digit j) ∧ s.afterRead reg = s.setBusyAcc) := by
  cases reg <;> first | exact .inl rfl | skip
  rename_i j
  cases hb : s.status.busy
  · exact .inl (by simp [State.afterRead, hb])
  · exact .inr ⟨rfl, ⟨j, rfl⟩, by simp [State.afterRead, hb]⟩

/-- Everything a host turn that ends in a next state can do: nothing (no access left), a write, or a read that is recorded and at most
sets BUSY_ACC; a POLL may stay. -/
theorem hostTurn_cases (h : hostTurn s = .next t) :
    (s.host = [] ∧ t = s) ∨
    (∃ off v rest, s.host = .wr .word off v :: rest ∧ off % 4 = 0 ∧ off < 0x8000 ∧ busWrite off v { s with host := rest } = .next t) ∨
    (∃ off host' u, (u = s ∨ u = s.setBusyAcc) ∧ t = { u with host := host', reads := (off, (busRead off s).1) :: s.reads }) := by
  have fits : ∀ {width off}, accessFault width off = none → width = .word ∧ off % 4 = 0 ∧ off < 0x8000 := by
    intro width off hf
    unfold accessFault at hf
    split_ifs at hf
    rename_i h1 h2
    rw [not_or, not_not, not_not] at h2
    exact ⟨h2.1, h2.2, by omega⟩
  cases hh : s.host with
  | nil =>
    simp only [hostTurn, hh] at h
    injection h with h
    exact .inl ⟨rfl, h.symm⟩
  | cons op rest =>
    cases op with
    | wr width off v =>
      simp only [hostTurn, hh] at h
      split at h
      · cases h
      · obtain ⟨rfl, h4, h8⟩ := fits ‹_›
        exact .inr (.inl ⟨off, v, rest, rfl, h4, h8, h⟩)
    | rd width off =>
      simp only [hostTurn, hh] at h
      split at h
      · cases h
      · injection h with h
        refine .inr (.inr ⟨off, rest, ?_⟩)
        rcases afterRead_cases (s := { s with host := rest }) (regAt s.dbufDepth off) with hr | ⟨-, -, hr⟩
        · exact ⟨s, .inl rfl, by rw [← h]; simp only [busRead, hr]; rfl⟩
        · exact ⟨s.setBusyAcc, .inr rfl, by rw [← h]; simp only [busRead, hr]; rfl⟩
    | poll off mask val =>
      simp only [hostTurn, hh] at h
      split at h
      · cases h
      · injection h with h
        refine .inr (.inr ⟨off, if (busRead off s).1 &&& mask = val then rest else .poll off mask val :: rest, ?_⟩)
        rcases afterRead_cases
          (s := { s with host := if (busRead off s).1 &&& mask = val then rest else .poll off mask val :: rest })
          (regAt s.dbufDepth off) with hr | ⟨-, -, hr⟩
        · exact ⟨s, .inl rfl, by rw [← h]; simp only [busRead] at hr ⊢; rw [hr]; rfl⟩
        · exact ⟨s.setBusyAcc, .inr rfl, by rw [← h]; simp only [busRead] at hr ⊢; rw [hr]; rfl⟩

end Sys2Proof.Machine
end

