-- ==== Sys2Proof/Laws/Datapath.lean ====
section
/-! SUPPORT. The radix arithmetic's small lemmas: recursion equations, lengths, ranges. -/

namespace Sys2Proof.Machine

variable {r m c : Nat} {x y z : List Nat}

@[simp] theorem numRev_nil : numRev r [] = 0 := rfl

@[simp] theorem numRev_cons (d : Nat) : numRev r (d :: x) = numRev r x * r + d := rfl

@[simp] theorem strRev_length : (strRev r m c).length = m := by simp [strRev]

@[simp] theorem strRev_zero : strRev r 0 c = [] := rfl

/-- StrRev's least significant digit first (R121). -/
theorem strRev_succ : strRev r (m + 1) c = c % r :: strRev r m (c / r) := by
  simp only [strRev, List.range_succ_eq_map, List.map_cons, List.map_map, pow_zero, Nat.div_one, List.cons.injEq, true_and]
  refine List.map_congr_left fun j _ => ?_
  simp only [Function.comp, Nat.succ_eq_add_one]
  rw [pow_succ', Nat.div_div_eq_div_mul]

/-- Every digit of StrRev is below r (R121). -/
theorem strRev_digits (hr : 0 < r) : digitString r (strRev r m c) := by
  intro d hd
  obtain ⟨j, -, rfl⟩ := List.mem_map.1 hd
  exact Nat.mod_lt _ hr

theorem halfU_add_halfV (n : Nat) : halfU n + halfV n = n := by
  simp only [halfV, halfU]
  omega

theorem halfV_le_halfU (n : Nat) : halfV n ≤ halfU n := by
  simp only [halfV, halfU]
  omega

theorem addDigit_lt (hr : 0 < r) (a b : Nat) : addDigit r a b < r := Nat.mod_lt _ hr

theorem subDigit_lt (hr : 0 < r) (a b : Nat) : subDigit r a b < r := Nat.mod_lt _ hr

/-- Subtracting what was added restores the digit (R130). -/
theorem subDigit_addDigit {a b : Nat} (ha : a < r) (hb : b < r) : subDigit r (addDigit r a b) b = a := by
  unfold subDigit addDigit
  rcases Nat.lt_or_ge (a + b) r with h | h
  · rw [Nat.mod_eq_of_lt h, show a + b + r - b = a + r by omega, Nat.add_mod_right, Nat.mod_eq_of_lt ha]
  · have : (a + b) % r = a + b - r := by rw [Nat.mod_eq_sub_mod h, Nat.mod_eq_of_lt (by omega)]
    rw [this, show a + b - r + r - b = a by omega, Nat.mod_eq_of_lt ha]

theorem digitString_append : digitString r (x ++ y) ↔ digitString r x ∧ digitString r y := by
  simp only [digitString, List.mem_append]
  exact ⟨fun h => ⟨fun d hd => h d (.inl hd), fun d hd => h d (.inr hd)⟩, fun h d hd => hd.elim (h.1 d) (h.2 d)⟩

theorem digitString_take (h : digitString r x) (a : Nat) : digitString r (x.take a) := fun d hd => h d (List.mem_of_mem_take hd)

theorem digitString_drop (h : digitString r x) (a : Nat) : digitString r (x.drop a) := fun d hd => h d (List.mem_of_mem_drop hd)

theorem digitString_slice (h : digitString r x) (a len : Nat) : digitString r (slice x a len) :=
  digitString_take (digitString_drop h a) len

theorem digitString_splice (h : digitString r x) (hz : digitString r z) (a : Nat) : digitString r (splice x a z) :=
  digitString_append.2 ⟨digitString_append.2 ⟨digitString_take h a, hz⟩, digitString_drop h _⟩

theorem digitString_addDigits (hr : 0 < r) : digitString r (addDigits r x y) := by
  intro d hd
  rw [addDigits, ← List.map_uncurry_zip_eq_zipWith] at hd
  obtain ⟨p, -, rfl⟩ := List.mem_map.1 hd
  exact addDigit_lt hr p.1 p.2

theorem digitString_subDigits (hr : 0 < r) : digitString r (subDigits r x y) := by
  intro d hd
  rw [subDigits, ← List.map_uncurry_zip_eq_zipWith] at hd
  obtain ⟨p, -, rfl⟩ := List.mem_map.1 hd
  exact subDigit_lt hr p.1 p.2

/-- X ⊖_r Y undoes X ⊕_r Y, digit by digit (R130). -/
theorem subDigits_addDigits (hx : digitString r x) (hy : digitString r y) (hl : x.length ≤ y.length) :
    subDigits r (addDigits r x y) y = x := by
  induction x generalizing y with
  | nil => simp [subDigits, addDigits]
  | cons a x ih =>
    cases y with
    | nil => simp at hl
    | cons b y =>
      simp only [addDigits, subDigits, List.zipWith_cons_cons, List.cons.injEq]
      refine ⟨subDigit_addDigit (hx a (by simp)) (hy b (by simp)), ?_⟩
      exact ih (fun d hd => hx d (by simp [hd])) (fun d hd => hy d (by simp [hd])) (by simpa using hl)

@[simp] theorem slice_length {a len : Nat} : (slice x a len).length = min len (x.length - a) := by simp [slice]

theorem splice_length {a : Nat} (h : a + z.length ≤ x.length) : (splice x a z).length = x.length := by
  simp only [splice, List.length_append, List.length_take, List.length_drop]
  omega

/-- Reading the window just written. -/
theorem slice_splice_same {a : Nat} (h : a ≤ x.length) : slice (splice x a z) a z.length = z := by
  simp only [slice, splice, List.append_assoc]
  rw [List.drop_append_of_le_length (by simp [h]), List.drop_of_length_le (by simp), List.nil_append]
  simp

/-- A window before the written one is unchanged. -/
theorem slice_splice_before {a b len : Nat} (h : b + len ≤ a) (ha : a ≤ x.length) : slice (splice x a z) b len = slice x b len := by
  simp only [slice, splice, List.append_assoc]
  rw [List.drop_append_of_le_length (by simp; omega), List.take_append_of_le_length (by simp; omega), List.drop_take,
    List.take_take, Nat.min_eq_left (by omega)]

/-- Writing a window twice leaves the second text. -/
theorem splice_splice {a : Nat} {z' : List Nat} (ha : a ≤ x.length) (hl : z.length = z'.length) :
    splice (splice x a z) a z' = splice x a z' := by
  have h : a + z'.length = (x.take a ++ z).length := by
    simp only [List.length_append, List.length_take]
    omega
  simp only [splice]
  rw [h, List.drop_left, List.append_assoc (x.take a), List.take_append_of_le_length (by simp [ha]), List.take_take, min_self, ← h, hl]

/-- Writing back what a window holds changes nothing. -/
theorem splice_slice {a len : Nat} (h : a + len ≤ x.length) : splice x a (slice x a len) = x := by
  have : (slice x a len).length = len := by
    rw [slice_length]
    omega
  simp only [splice, this]
  simp only [slice]
  rw [List.append_assoc, ← List.drop_drop, List.take_append_drop, List.take_append_drop]

end Sys2Proof.Machine
end

