-- ==== Sys2Proof/Laws/Cipher.lean ====
section
/-! SUPPORT. Lengths and digit ranges through the rounds, the whole ciphers and BPS, for every primitive `E` (R178, R181, R212). -/

namespace Sys2Proof.Machine

variable {E : List Byte → List Byte} {bs r n M : Nat} {w : List Byte × List Byte} {t : List Byte}
  {ab : List Nat × List Nat} {i : Nat} {x y : List Nat}

/-- The halves at the entry of encrypt round i: lengths m and n − m, digits below r (R178: "A always has length m when the round
begins"). -/
structure Halves (r n i : Nat) (ab : List Nat × List Nat) : Prop where
  fst : ab.1.length = roundM n i
  snd : ab.2.length = roundM n (i + 1)
  digits : digitString r ab.1 ∧ digitString r ab.2

theorem roundM_add_two (n i : Nat) : roundM n (i + 2) = roundM n i := by
  simp only [roundM, Nat.add_mod_right]

theorem roundM_add_roundM (n i : Nat) : roundM n i + roundM n (i + 1) = n := by
  have h := halfU_add_halfV n
  simp only [roundM]
  split_ifs <;> omega

theorem Halves.encRound (hr : 0 < r) (h : Halves r n i ab) : Halves r n (i + 1) (encRound E bs r n w ab i) where
  fst := h.snd
  snd := by simp only [Machine.encRound, strRev_length, roundM_add_two]
  digits := ⟨h.digits.2, strRev_digits hr⟩

theorem Halves.decRound (hr : 0 < r) (h : Halves r n (i + 1) ab) : Halves r n i (decRound E bs r n w ab i) where
  fst := by simp only [Machine.decRound, strRev_length]
  snd := h.fst
  digits := ⟨strRev_digits hr, h.digits.1⟩

/-- The two halves of a digit string are the halves of round 0 (R123). -/
theorem Halves.start (h : digitString r x) : Halves r x.length 0 (x.take (halfU x.length), x.drop (halfU x.length)) where
  fst := by
    have := halfU_add_halfV x.length
    simp only [List.length_take, roundM, Nat.zero_mod, if_true]
    omega
  snd := by
    have := halfU_add_halfV x.length
    simp only [List.length_drop, roundM]
    norm_num
    omega
  digits := ⟨digitString_take h _, digitString_drop h _⟩

/-- Round 8's halves are round 0's: m alternates. -/
theorem Halves.eight (h : Halves r n 0 ab) : Halves r n 8 ab := ⟨h.fst, h.snd, h.digits⟩

theorem Halves.zero (h : Halves r n 8 ab) : Halves r n 0 ab := ⟨h.fst, h.snd, h.digits⟩

/-- The halves after the eight encrypt rounds. -/
theorem encRounds_halves (hr : 0 < r) (h : Halves r n 0 ab) :
    Halves r n 8 ([0, 1, 2, 3, 4, 5, 6, 7].foldl (encRound E bs r n w) ab) :=
  (((((((h.encRound hr).encRound hr).encRound hr).encRound hr).encRound hr).encRound hr).encRound hr).encRound hr

/-- The halves after the eight decrypt rounds. -/
theorem decRounds_halves (hr : 0 < r) (h : Halves r n 8 ab) :
    Halves r n 0 ([7, 6, 5, 4, 3, 2, 1, 0].foldl (decRound E bs r n w) ab) :=
  (((((((h.decRound hr).decRound hr).decRound hr).decRound hr).decRound hr).decRound hr).decRound hr).decRound hr

theorem Halves.length (h : Halves r n 0 ab) : (ab.1 ++ ab.2).length = n := by
  rw [List.length_append, h.fst, h.snd, roundM_add_roundM]

theorem feistelEnc_length (hr : 0 < r) (h : digitString r x) : (feistelEnc E bs r t x).length = x.length :=
  (encRounds_halves hr (Halves.start h)).zero.length

theorem feistelDec_length (hr : 0 < r) (h : digitString r x) : (feistelDec E bs r t x).length = x.length :=
  (decRounds_halves hr (Halves.start h).eight).length

theorem feistelEnc_digits (hr : 0 < r) (h : digitString r x) : digitString r (feistelEnc E bs r t x) :=
  digitString_append.2 (encRounds_halves hr (Halves.start h)).digits

theorem feistelDec_digits (hr : 0 < r) (h : digitString r x) : digitString r (feistelDec E bs r t x) :=
  digitString_append.2 (decRounds_halves hr (Halves.start h).eight).digits

/-! ## BPS -/

/-- A digit string of a given length. -/
structure Message (r len : Nat) (x : List Nat) : Prop where
  length : x.length = len
  digits : digitString r x

variable {len a : Nat}

theorem Message.splice {z : List Nat} (h : Message r len y) (hz : digitString r z) (ha : a + z.length ≤ len) :
    Message r len (splice y a z) :=
  ⟨by rw [splice_length (by rw [h.length]; exact ha), h.length], digitString_splice h.digits hz a⟩

theorem Message.slice (h : Message r len y) (ha : a + M ≤ len) : Message r M (slice y a M) :=
  ⟨by rw [slice_length, h.length]; omega, digitString_slice h.digits a M⟩

/-- The operand of block i: its digits with the previous cipher block added (R205). -/
theorem Message.mixed (hr : 0 < r) (h : Message r len y) (hi : (i + 1) * M ≤ len) :
    Message r M (if 0 < i then addDigits r (Machine.slice y (i * M) M) (Machine.slice y (i * M - M) M) else Machine.slice y (i * M) M) := by
  rw [Nat.succ_mul] at hi
  have h1 : Message r M (Machine.slice y (i * M) M) := h.slice hi
  split
  · have h2 : Message r M (Machine.slice y (i * M - M) M) := h.slice (by omega)
    refine ⟨?_, digitString_addDigits hr⟩
    rw [addDigits, List.length_zipWith, h1.length, h2.length, min_self]
  · exact h1

theorem bpsEncBlock_message (hr : 0 < r) (h : Message r len y) (hi : (i + 1) * M ≤ len) :
    Message r len (bpsEncBlock E bs r M t y i) := by
  have hm := h.mixed hr hi
  refine h.splice (feistelEnc_digits hr hm.digits) ?_
  rw [feistelEnc_length hr hm.digits, hm.length, ← Nat.succ_mul]
  exact hi

theorem bpsDecBlock_message (hr : 0 < r) (h : Message r len y) (hi : (i + 1) * M ≤ len) :
    Message r len (bpsDecBlock E bs r M t y i) := by
  rw [Nat.succ_mul] at hi
  have h1 : Message r M (slice y (i * M) M) := h.slice hi
  have hl := feistelDec_length (E := E) (bs := bs) (t := perturb t i) hr h1.digits
  unfold bpsDecBlock
  split
  · have h2 : Message r M (slice y (i * M - M) M) := h.slice (by omega)
    refine h.splice (digitString_subDigits hr) ?_
    rw [subDigits, List.length_zipWith, hl, h1.length, h2.length, min_self]
    exact hi
  · refine h.splice (feistelDec_digits hr h1.digits) ?_
    rw [hl, h1.length]
    exact hi

/-- A loop that sets one digit at a time keeps a message a message. -/
theorem foldl_set_message (f : List Nat → Nat → Nat) (g : Nat → Nat) (hf : ∀ z k, f z k < r) (ks : List Nat)
    (h : Message r len y) : Message r len (ks.foldl (fun z k => z.set (g k) (f z k)) y) := by
  induction ks generalizing y with
  | nil => exact h
  | cons k ks ih =>
    refine ih ⟨by rw [List.length_set, h.length], fun d hd => ?_⟩
    rcases List.mem_or_eq_of_mem_set hd with hd | rfl
    exacts [h.digits d hd, hf y k]

theorem bpsPreMix_message {rest : Nat} (hr : 0 < r) (h : Message r len y) : Message r len (bpsPreMix r M rest y) :=
  foldl_set_message (fun z idx => addDigit r (z.getD idx 0) (z.getD (idx - M) 0)) id (fun _ _ => addDigit_lt hr _ _) _ h

theorem bpsUnMix_message {rest : Nat} (hr : 0 < r) (h : Message r len x) : Message r len (bpsUnMix r M rest y x) :=
  foldl_set_message (fun z idx => subDigit r (z.getD (M - idx) 0) (y.getD (y.length - idx - M) 0)) (fun idx => M - idx)
    (fun _ _ => subDigit_lt hr _ _) _ h

theorem bpsEncTail_message (hr : 0 < r) (h : Message r len y) (hM : M ≤ len) : Message r len (bpsEncTail E bs r M t y) := by
  have h1 : Message r len (bpsPreMix r M (y.length % M) y) := bpsPreMix_message hr h
  have h2 : Message r M (slice (bpsPreMix r M (y.length % M) y) (y.length - M) M) := h1.slice (by rw [h.length]; omega)
  refine h1.splice (feistelEnc_digits hr h2.digits) ?_
  rw [feistelEnc_length hr h2.digits, h2.length, h.length]
  omega

theorem bpsDecTail_message (hr : 0 < r) (h : Message r len y) (hM : M ≤ len) : Message r len (bpsDecTail E bs r M t y) := by
  have h2 : Message r M (slice y (y.length - M) M) := h.slice (by rw [h.length]; omega)
  have h3 : Message r M (bpsUnMix r M (y.length % M) y
      (feistelDec E bs r (perturb t (y.length / M)) (slice y (y.length - M) M))) :=
    bpsUnMix_message hr ⟨by rw [feistelDec_length hr h2.digits, h2.length], feistelDec_digits hr h2.digits⟩
  refine h.splice h3.digits ?_
  rw [h3.length, h.length]
  omega

/-- A loop over complete blocks keeps a message a message. -/
theorem foldl_blocks_message (f : List Nat → Nat → List Nat) (hf : ∀ {z k}, Message r len z → (k + 1) * M ≤ len → Message r len (f z k))
    (ks : List Nat) (hk : ∀ k ∈ ks, (k + 1) * M ≤ len) (h : Message r len y) : Message r len (ks.foldl f y) := by
  induction ks generalizing y with
  | nil => exact h
  | cons k ks ih => exact ih (fun k' hk' => hk k' (by simp [hk'])) (hf h (hk k (by simp)))

/-- Every complete block lies inside the message (R202). -/
theorem block_fits {k : Nat} (hk : k < len / M) : (k + 1) * M ≤ len :=
  le_trans (Nat.mul_le_mul_right M hk) (Nat.div_mul_le_self len M)

theorem bpsEncrypt_message (hr : 0 < r) (h : digitString r x) : Message r x.length (bpsEncrypt E bs r M t x) := by
  have hx : Message r x.length x := ⟨rfl, h⟩
  unfold bpsEncrypt
  split
  · exact ⟨feistelEnc_length hr h, feistelEnc_digits hr h⟩
  · have h1 : Message r x.length ((List.range (x.length / M)).foldl (bpsEncBlock E bs r M t) x) :=
      foldl_blocks_message _ (bpsEncBlock_message hr) _ (fun k hk => block_fits (List.mem_range.1 hk)) hx
    dsimp only
    split
    · exact bpsEncTail_message hr h1 (by omega)
    · exact h1

theorem bpsDecrypt_message (hr : 0 < r) (h : digitString r x) : Message r x.length (bpsDecrypt E bs r M t x) := by
  have hx : Message r x.length x := ⟨rfl, h⟩
  unfold bpsDecrypt
  split
  · exact ⟨feistelDec_length hr h, feistelDec_digits hr h⟩
  · have h1 : Message r x.length (if 0 < x.length % M then bpsDecTail E bs r M t x else x) := by
      split
      · exact bpsDecTail_message hr hx (by omega)
      · exact hx
    exact foldl_blocks_message _ (bpsDecBlock_message hr) _
      (fun k hk => block_fits (List.mem_range.1 (List.mem_reverse.1 hk))) h1

end Sys2Proof.Machine
end

