-- ==== Sys2Proof/Laws/Engine.lean ====
section
/-! SUPPORT. What the checks decide, and everything a completion step, an engine turn and a step can do. -/

namespace Sys2Proof.Machine

variable {s t : State} {i : Instr} {n len : Nat} {e : ErrName} {info : Nat} {check : Option (ErrName × Nat)}
  {cipher : List Nat → List Nat}

/-! ## The checks -/

theorem ff3TweakOk_iff : ff3TweakOk s.snap.tlen s.act.legacy = true ↔ ff3TweakAccepted s := by
  simp only [ff3TweakOk, ff3TweakAccepted, Bool.or_eq_true, Bool.and_eq_true, beq_iff_eq, or_assoc]

theorem bpsTweakOk_iff : bpsTweakOk s.snap.tlen = true ↔ bpsTweakAccepted s := by
  simp only [bpsTweakOk, bpsTweakAccepted, Bool.or_eq_true, beq_iff_eq]

/-- No digit of the message is refused (R182, R211). -/
theorem firstBadDigit_none : firstBadDigit s n = none ↔ ∀ j < n, (s.digit j).toNat < s.act.r := by
  simp [firstBadDigit, List.find?_eq_none]

/-- The first refused digit (R182, R211). -/
theorem firstBadDigit_some {j : Nat} : firstBadDigit s n = some j ↔
    j < n ∧ s.act.r ≤ (s.digit j).toNat ∧ ∀ k < j, (s.digit k).toNat < s.act.r := by
  unfold firstBadDigit
  rw [List.find?_range_eq_some]
  simp only [decide_eq_true_eq, Bool.not_eq_true', decide_eq_false_iff_not, not_le, List.mem_range]
  tauto

/-- ff3_check passes (R182). -/
theorem ff3Check_none : ff3Check s = none ↔
    s.act.valid = true ∧ s.act.bs = 128 ∧ ff3TweakAccepted s ∧ s.act.minlen ≤ s.snap.n.toNat ∧ s.snap.n.toNat ≤ s.act.maxlen ∧
      digitsBelowRadix s := by
  unfold ff3Check digitsBelowRadix
  rw [← ff3TweakOk_iff]
  split_ifs with h1 h2 h3 h4
  · simp [h1]
  · simp [h2]
  · simp [h3]
  · simp only [false_iff]
    omega
  · rw [Option.map_eq_none_iff, firstBadDigit_none]
    simp only [Bool.not_eq_false] at h1 h3
    constructor
    · intro h
      exact ⟨h1, not_not.1 h2, h3, by omega, by omega, h⟩
    · exact fun h => h.2.2.2.2.2

/-- bps_check passes (R211). -/
theorem bpsCheck_none : bpsCheck s = none ↔
    s.act.valid = true ∧ bpsTweakAccepted s ∧ s.act.minlen ≤ s.snap.n.toNat ∧ s.snap.n.toNat ≤ s.dbufDepth ∧
      digitsBelowRadix s := by
  unfold bpsCheck digitsBelowRadix
  rw [← bpsTweakOk_iff]
  split_ifs with h1 h2 h3
  · simp [h1]
  · simp [h2]
  · simp only [false_iff]
    omega
  · rw [Option.map_eq_none_iff, firstBadDigit_none]
    simp only [Bool.not_eq_false] at h1 h2
    constructor
    · intro h
      exact ⟨h1, h2, by omega, by omega, h⟩
    · exact fun h => h.2.2.2.2

/-- The errors a data command's check can raise, and the only one with a non-zero ERRINFO (R43, R182). -/
theorem ff3Check_some (h : ff3Check s = some (e, info)) :
    e.code ∈ errorCodes ∧ (info ≠ 0 → e = .inDigit) ∧ (e = .inDigit → info < s.snap.n.toNat ∧ s.snap.n.toNat ≤ s.act.maxlen) := by
  unfold ff3Check at h
  split_ifs at h with h1 h2 h3 h4 <;>
    try (injection h with h; injection h with h h'; subst h h'; exact ⟨by decide, fun h => absurd rfl h, nofun⟩)
  obtain ⟨j, hj, h⟩ := Option.map_eq_some_iff.1 h
  injection h with h h'
  subst h h'
  exact ⟨by decide, fun _ => rfl, fun _ => ⟨(firstBadDigit_some.1 hj).1, by omega⟩⟩

/-- The same of BPS commands (R211). -/
theorem bpsCheck_some (h : bpsCheck s = some (e, info)) :
    e.code ∈ errorCodes ∧ (info ≠ 0 → e = .inDigit) ∧ (e = .inDigit → info < s.snap.n.toNat ∧ s.snap.n.toNat ≤ s.dbufDepth) := by
  unfold bpsCheck at h
  split_ifs at h with h1 h2 h3 <;>
    try (injection h with h; injection h with h h'; subst h h'; exact ⟨by decide, fun h => absurd rfl h, nofun⟩)
  obtain ⟨j, hj, h⟩ := Option.map_eq_some_iff.1 h
  injection h with h h'
  subst h h'
  exact ⟨by decide, fun _ => rfl, fun _ => ⟨(firstBadDigit_some.1 hj).1, by omega⟩⟩

/-- ff3_check's IN_DIGIT names the lowest refused digit (R43, R182). -/
theorem ff3Check_inDigit (h : ff3Check s = some (.inDigit, info)) : firstBadDigit s s.snap.n.toNat = some info := by
  unfold ff3Check at h
  split_ifs at h <;> first | cases h | simpa using h

/-- bps_check's IN_DIGIT names the lowest refused digit (R43, R211). -/
theorem bpsCheck_inDigit (h : bpsCheck s = some (.inDigit, info)) : firstBadDigit s s.snap.n.toNat = some info := by
  unfold bpsCheck at h
  split_ifs at h <;> first | cases h | simpa using h

/-- 0x23 is the code of IN_DIGIT alone (R242). -/
theorem code_eq_inDigit : e.code = 0x23 ↔ e = .inDigit := by cases e <;> decide

/-- A selection decodes exactly from the non-zero, non-reserved CIPHER values (R105). -/
theorem cipherOf_none {sel : BitVec 3} : cipherOf sel = none ↔ sel = 0 ∨ sel = 6 ∨ sel = 7 := by
  revert sel
  decide

/-! ## Completion steps -/

/-- Everything a data command's completion can do. -/
theorem runData_cases (check : Option (ErrName × Nat)) (len : Nat) (cipher : List Nat → List Nat) (s : State) :
    (∃ e info, check = some (e, info) ∧ runData check len cipher s = .next (raiseError e info s)) ∨
    (check = none ∧ datapathOk s len (s.message s.snap.n.toNat) (cipher (s.message s.snap.n.toNat)) = true ∧
      runData check len cipher s = .next (completeOk (s.storeMessage (cipher (s.message s.snap.n.toNat))))) ∨
    (check = none ∧ datapathOk s len (s.message s.snap.n.toNat) (cipher (s.message s.snap.n.toNat)) = false ∧
      runData check len cipher s = .next (internalError s.snap.n.toNat s)) := by
  cases check with
  | some p => exact .inl ⟨p.1, p.2, rfl, rfl⟩
  | none =>
    cases hd : datapathOk s len (s.message s.snap.n.toNat) (cipher (s.message s.snap.n.toNat))
    · exact .inr (.inr ⟨rfl, rfl, by simp [runData, hd]⟩)
    · exact .inr (.inl ⟨rfl, rfl, by simp [runData, hd]⟩)

/-- Everything CONFIGURE's completion can do (R221, R224). -/
theorem execConfigure_cases (s : State) :
    (∃ cs, cfgCheck s.snap = .ok cs ∧ execConfigure s = .next (completeOk { s with act := newAct s.snap cs })) ∨
    (∃ e, cfgCheck s.snap = .error e ∧
      execConfigure s = .next (raiseError e 0 { s with act := deadAct s.freeCount, freeCount := s.freeCount + 4 })) := by
  cases hc : cfgCheck s.snap with
  | ok cs => exact .inl ⟨cs, rfl, by simp [execConfigure, hc]⟩
  | error e => exact .inr ⟨e, rfl, by simp [execConfigure, hc]⟩

/-- cfg_check passes (R222). -/
theorem cfgCheck_ok {p : Snap} {cs : Cipher} : cfgCheck p = .ok cs ↔
    cipherOf p.cfgr.cipher = some cs ∧ (2 ≤ p.radix.toNat ∧ p.radix.toNat ≤ 65536) ∧ minok p.radix.toNat p.minlen.toNat = true ∧
      p.minlen.toNat ≤ p.maxlen.toNat ∧ p.maxlen.toNat ≤ limit p.radix.toNat (blockBits cs) := by
  unfold cfgCheck
  split
  · rename_i h0
    rw [h0]
    simp [cipherOf]
  · split
    · rename_i hn
      simp [hn]
    · rename_i cs' hs
      rw [hs]
      split_ifs with h1 h2 h3 h4
      · simp only [false_iff]
        omega
      · simp [h2]
      · simp only [false_iff]
        omega
      · simp only [false_iff, Option.some.injEq]
        rintro ⟨rfl, -, -, -, h⟩
        omega
      · simp only [Except.ok.injEq, Option.some.injEq]
        constructor
        · rintro rfl
          exact ⟨rfl, by omega, by simpa using h2, by omega, by omega⟩
        · exact fun h => h.1

/-- The errors CONFIGURE raises (R222). -/
theorem cfgCheck_error {p : Snap} (h : cfgCheck p = .error e) : e.code ∈ errorCodes ∧ e ≠ .inDigit := by
  unfold cfgCheck at h
  split at h
  · injection h with h
    subst h
    decide
  · split at h
    · injection h with h
      subst h
      decide
    · split_ifs at h <;> (injection h with h; subst h; decide)

/-- Every command has a next state: none stops. -/
theorem exec_next (i : Instr) (s : State) : ∃ t, exec i s = .next t := by
  have data : ∀ check len cipher, ∃ t, runData check len cipher s = .next t := by
    intro check len cipher
    rcases runData_cases check len cipher s with ⟨_, _, -, h⟩ | ⟨-, -, h⟩ | ⟨-, -, h⟩ <;> exact ⟨_, h⟩
  cases i with
  | nop => exact ⟨_, rfl⟩
  | configure => rcases execConfigure_cases s with ⟨_, -, h⟩ | ⟨_, -, h⟩ <;> exact ⟨_, h⟩
  | ff3Enc => exact data _ _ _
  | ff3Dec => exact data _ _ _
  | bpsEnc => exact data _ _ _
  | bpsDec => exact data _ _ _
  | wipe => exact ⟨_, rfl⟩
  | illegal _ => exact ⟨_, rfl⟩

/-! ## The datapath never overflows in a good state -/

theorem message_length : (s.message n).length = n := by simp [State.message]

theorem message_digits (h : digitsBelowRadix s) : digitString s.act.r (s.message s.snap.n.toNat) := by
  intro d hd
  obtain ⟨j, hj, rfl⟩ := List.mem_map.1 hd
  exact h j (List.mem_range.1 hj)

/-- LIMIT's own bound: r^(LIMIT/2) ≤ 2^(BS−32) (R128). -/
theorem pow_halfLimit_le (r bs : Nat) : r ^ (limit r bs / 2) ≤ 2 ^ (bs - 32) := by
  have h : r ^ Nat.findGreatest (fun k => r ^ k ≤ 2 ^ (bs - 32)) (bs - 32) ≤ 2 ^ (bs - 32) :=
    Nat.findGreatest_spec (P := fun k => r ^ k ≤ 2 ^ (bs - 32)) (Nat.zero_le (bs - 32)) (by simpa using Nat.one_le_two_pow)
  unfold limit
  rwa [Nat.mul_div_cancel_left _ (by decide)]

/-- A Feistel call no longer than maxlen fits the datapath under an accepted configuration (R125). -/
theorem Act.Ok.pow_halfU_le {a : Act} (h : a.Ok) {n : Nat} (hn : n ≤ a.maxlen) : a.r ^ halfU n ≤ 2 ^ (a.bs - 32) := by
  refine le_trans (Nat.pow_le_pow_right (by have := h.radix; omega) ?_) (pow_halfLimit_le a.r a.bs)
  have h1 := h.maxlen
  have h2 : limit a.r a.bs % 2 = 0 := by simp [limit]
  simp only [halfU]
  omega

theorem Act.Ok.two_le_minlen {a : Act} (h : a.Ok) : 2 ≤ a.minlen := by
  have := h.minlen
  simp only [minok, Bool.and_eq_true, decide_eq_true_eq] at this
  exact this.1

/-- The guards of R246 hold for every result as long as its message. -/
theorem datapathOk_of (ha : s.act.Ok) (hlen : len ≤ s.act.maxlen) {x y : List Nat} (hl : y.length = x.length) :
    datapathOk s len x y = true := by
  simp [datapathOk, hl, ha.pow_halfU_le hlen]

/-- From a good state, a data command whose checks pass completes and stores its result. -/
theorem runData_ok (hs : s.Inv) (hv : s.act.valid = true) (hlen : len ≤ s.act.maxlen)
    (hc : (cipher (s.message s.snap.n.toNat)).length = s.snap.n.toNat) :
    runData none len cipher s = .next (completeOk (s.storeMessage (cipher (s.message s.snap.n.toNat)))) := by
  have : datapathOk s len (s.message s.snap.n.toNat) (cipher (s.message s.snap.n.toNat)) = true :=
    datapathOk_of (hs.actOk hv) hlen (by rw [hc, message_length])
  simp [runData, this]

/-- LIMIT never exceeds the largest buffer depth: 2·(BS − 32) ≤ 192 (R8, R128). -/
theorem limit_le (r bs : Nat) : limit r bs ≤ 2 * (bs - 32) :=
  Nat.mul_le_mul_left 2 (Nat.findGreatest_le _)

theorem Act.Ok.maxlen_le {a : Act} (h : a.Ok) : a.maxlen ≤ 192 := by
  have h1 := h.maxlen
  have h2 := limit_le a.r a.bs
  have h3 : blockBits a.cs ≤ 128 := by cases a.cs <;> decide
  have h4 := h.blockSize
  omega

/-- Storing a message keeps the buffer canonical and inside the depth. -/
theorem storeMessage_wf (h : s.digits.wf) (y : List Nat) : (s.storeMessage y).digits.wf := Memory.wf_writeFrom h

theorem storeMessage_in (h : ∀ p ∈ s.digits, p.1 < s.dbufDepth) {y : List Nat} (hy : y.length ≤ s.dbufDepth) :
    ∀ p ∈ (s.storeMessage y).digits, p.1 < s.dbufDepth := Memory.writeFrom_in h (by simpa using hy)

/-- The digits after a stored result (R50, R180). -/
theorem storeMessage_digit (h : s.digits.wf) (y : List Nat) (j : Nat) :
    (s.storeMessage y).digit j = if j < y.length then BitVec.ofNat 32 (y.getD j 0) else s.digit j := by
  simp only [State.digit, storeMessage_digits, Memory.read_writeFrom h, List.length_map, Nat.zero_le, true_and, Nat.zero_add,
    Nat.sub_zero]
  split_ifs with hj
  · simp [List.getD_eq_getElem?_getD, hj]
  · rfl

/-- The data commands. -/
def isDataCommand (i : Instr) : Prop := i = .ff3Enc ∨ i = .ff3Dec ∨ i = .bpsEnc ∨ i = .bpsDec

/-- What a data command's outcome `o` can be, before the guards of R246: its check raises an error, or its cipher runs over digits below
the radix, with no Feistel call longer than maxlen (R182, R211). -/
def DataOutcome (s : State) (o : Host.Outcome State Fault Refusal) : Prop :=
  (∃ e info, o = .next (raiseError e info s) ∧ e.code ∈ errorCodes ∧ (info ≠ 0 → e = .inDigit) ∧
    (e = .inDigit → info < s.snap.n.toNat ∧ (s.snap.n.toNat ≤ s.act.maxlen ∨ s.snap.n.toNat ≤ s.dbufDepth) ∧
      s.act.valid = true)) ∨
  (s.act.valid = true ∧ s.act.minlen ≤ s.snap.n.toNat ∧ digitsBelowRadix s ∧
    (s.snap.n.toNat ≤ s.act.maxlen ∨ s.snap.n.toNat ≤ s.dbufDepth) ∧
    ∃ len cipher, o = runData none len cipher s ∧ len ≤ s.act.maxlen ∧
      ∀ x, digitString s.act.r x → 0 < s.act.r → Message s.act.r x.length (cipher x))

theorem ff3_outcome (hm : ∀ x, digitString s.act.r x → 0 < s.act.r → Message s.act.r x.length (cipher x)) :
    DataOutcome s (runData (ff3Check s) s.snap.n.toNat cipher s) := by
  cases hc : ff3Check s with
  | some p =>
    obtain ⟨h1, h2, h3⟩ := ff3Check_some (e := p.1) (info := p.2) hc
    refine .inl ⟨p.1, p.2, rfl, h1, h2, fun he => ⟨(h3 he).1, .inl (h3 he).2, ?_⟩⟩
    by_contra hv
    rw [ff3Check, if_pos (by simpa using hv)] at hc
    injection hc with hc
    rw [← hc] at he
    cases he
  | none =>
    obtain ⟨h1, -, -, h2, h3, h4⟩ := ff3Check_none.1 hc
    exact .inr ⟨h1, h2, h4, .inl h3, _, cipher, rfl, h3, hm⟩

theorem bps_outcome (hm : ∀ x, digitString s.act.r x → 0 < s.act.r → Message s.act.r x.length (cipher x)) :
    DataOutcome s (runData (bpsCheck s) s.bpsCallLen cipher s) := by
  cases hc : bpsCheck s with
  | some p =>
    obtain ⟨h1, h2, h3⟩ := bpsCheck_some (e := p.1) (info := p.2) hc
    refine .inl ⟨p.1, p.2, rfl, h1, h2, fun he => ⟨(h3 he).1, .inr (h3 he).2, ?_⟩⟩
    by_contra hv
    rw [bpsCheck, if_pos (by simpa using hv)] at hc
    injection hc with hc
    rw [← hc] at he
    cases he
  | none =>
    obtain ⟨h1, -, h2, h3, h4⟩ := bpsCheck_none.1 hc
    exact .inr ⟨h1, h2, h4, .inr h3, _, cipher, rfl, min_le_right _ _, hm⟩

/-- Each data command's outcome. -/
theorem data_outcome (hi : isDataCommand i) (s : State) : DataOutcome s (exec i s) := by
  rcases hi with rfl | rfl | rfl | rfl
  · exact ff3_outcome fun x hx hr => ⟨feistelEnc_length hr hx, feistelEnc_digits hr hx⟩
  · exact ff3_outcome fun x hx hr => ⟨feistelDec_length hr hx, feistelDec_digits hr hx⟩
  · exact bps_outcome fun x hx hr => bpsEncrypt_message hr hx
  · exact bps_outcome fun x hx hr => bpsDecrypt_message hr hx

/-- Everything a completion step can do: raise an error, fail or commit a configuration, wipe, store a message's result, or raise
INTERNAL, the last only under a configuration that CONFIGURE does not accept. -/
def CompletionOutcome (i : Instr) (s : State) (o : Host.Outcome State Fault Refusal) : Prop :=
  (∃ e info, i ≠ .configure ∧ o = .next (raiseError e info s) ∧ e.code ∈ errorCodes ∧ (info ≠ 0 → e = .inDigit) ∧
    (e = .inDigit → info < s.snap.n.toNat ∧ (s.snap.n.toNat ≤ s.act.maxlen ∨ s.snap.n.toNat ≤ s.dbufDepth) ∧
      s.act.valid = true)) ∨
  (∃ e, i = .configure ∧ cfgCheck s.snap = .error e ∧
    o = .next (raiseError e 0 { s with act := deadAct s.freeCount, freeCount := s.freeCount + 4 })) ∨
  (∃ cs, i = .configure ∧ cfgCheck s.snap = .ok cs ∧ o = .next (completeOk { s with act := newAct s.snap cs })) ∨
  (i = .wipe ∧ o = .next (completeOk { s with
    digits := []
    keys := Vector.replicate 8 0
    tweak0 := 0
    tweak1 := 0
    act := { s.act with valid := false, key := zeroKey } })) ∨
  (isDataCommand i ∧ s.act.valid = true ∧ s.act.minlen ≤ s.snap.n.toNat ∧ digitsBelowRadix s ∧
    (s.snap.n.toNat ≤ s.act.maxlen ∨ s.snap.n.toNat ≤ s.dbufDepth) ∧
    ((∃ y, (0 < s.act.r → Message s.act.r s.snap.n.toNat y) ∧ o = .next (completeOk (s.storeMessage y))) ∨
      (¬s.act.Ok ∧ o = .next (internalError s.snap.n.toNat s))))

theorem DataOutcome.completion {o : Host.Outcome State Fault Refusal} (hi : isDataCommand i) (h : DataOutcome s o) :
    CompletionOutcome i s o := by
  rcases h with ⟨e, info, h1, h2, h3, h4⟩ | ⟨h1, h2, h3, h4, len, cipher, rfl, h6, h7⟩
  · exact .inl ⟨e, info, by rcases hi with rfl | rfl | rfl | rfl <;> nofun, h1, h2, h3, h4⟩
  · refine .inr (.inr (.inr (.inr ⟨hi, h1, h2, h3, h4, ?_⟩)))
    have hm := h7 _ (message_digits h3)
    rw [message_length] at hm
    rcases runData_cases none len cipher s with ⟨_, _, h, -⟩ | ⟨-, -, h⟩ | ⟨-, hg, h⟩
    · cases h
    · exact .inl ⟨_, hm, h⟩
    · refine .inr ⟨fun ha => ?_, h⟩
      rw [datapathOk_of ha h6 (by rw [(hm (by have := ha.radix; omega)).length, message_length])] at hg
      cases hg

/-- Each command's completion. -/
theorem exec_cases (hi : i ≠ .nop) (s : State) : CompletionOutcome i s (exec i s) := by
  cases i with
  | nop => exact absurd rfl hi
  | configure =>
    rcases execConfigure_cases s with ⟨cs, h1, h2⟩ | ⟨e, h1, h2⟩
    · exact .inr (.inr (.inl ⟨cs, rfl, h1, h2⟩))
    · exact .inr (.inl ⟨e, rfl, h1, h2⟩)
  | ff3Enc => exact (data_outcome (.inl rfl) s).completion (.inl rfl)
  | ff3Dec => exact (data_outcome (.inr (.inl rfl)) s).completion (.inr (.inl rfl))
  | bpsEnc => exact (data_outcome (.inr (.inr (.inl rfl))) s).completion (.inr (.inr (.inl rfl)))
  | bpsDec => exact (data_outcome (.inr (.inr (.inr rfl))) s).completion (.inr (.inr (.inr rfl)))
  | wipe => exact .inr (.inr (.inr (.inl ⟨rfl, rfl⟩)))
  | illegal w => exact .inl ⟨.badCmd, 0, nofun, rfl, by decide, fun h => absurd rfl h, nofun⟩

/-! ## Engine turns and steps -/

/-- Everything the engine's turn can do. -/
theorem engineTurn_cases (s : State) :
    (s.status.busy = true ∧ s.status.fatal = false ∧ engineTurn s = exec (decode s.snap.word) s) ∨
    ((s.status.busy = false ∨ s.status.fatal = true) ∧ engineTurn s = .next s) := by
  cases hb : s.status.busy <;> cases hf : s.status.fatal <;> simp [engineTurn, hb, hf]

/-- A step is the turn it is, on the state with the turn used up. -/
theorem step_eq (s : State) : step s = runTurn s.whose { s with turns := s.turns.tail } := by
  cases h : s.turns with
  | nil =>
    have : ({ s with turns := [] } : State) = s := by rw [← h]
    simp only [step, State.whose, h, List.tail_nil, this]
  | cons t ts => simp only [step, State.whose, h, List.tail_cons]

end Sys2Proof.Machine
end

