-- ==== Sys2Proof/Laws/PerInstr.lean ====
section
/-! SUPPORT. Laws of every command as syntax, one lemma per constructor. -/

namespace Sys2Proof.Laws.LegalWord

/-- The words up to 6 are the encodings of the legal commands, the others those of the illegal ones (R101, R107). -/
def Statement (i : Instr) : Prop := i.wf = true → ((encode i).toNat ≤ 6 ↔ ∀ w, i ≠ .illegal w)

theorem nop : Statement .nop := fun _ => ⟨fun _ _ h => Instr.noConfusion h, fun _ => show _ ≤ 6 by decide⟩
theorem configure : Statement .configure := fun _ => ⟨fun _ _ h => Instr.noConfusion h, fun _ => show _ ≤ 6 by decide⟩
theorem ff3Enc : Statement .ff3Enc := fun _ => ⟨fun _ _ h => Instr.noConfusion h, fun _ => show _ ≤ 6 by decide⟩
theorem ff3Dec : Statement .ff3Dec := fun _ => ⟨fun _ _ h => Instr.noConfusion h, fun _ => show _ ≤ 6 by decide⟩
theorem bpsEnc : Statement .bpsEnc := fun _ => ⟨fun _ _ h => Instr.noConfusion h, fun _ => show _ ≤ 6 by decide⟩
theorem bpsDec : Statement .bpsDec := fun _ => ⟨fun _ _ h => Instr.noConfusion h, fun _ => show _ ≤ 6 by decide⟩
theorem wipe : Statement .wipe := fun _ => ⟨fun _ _ h => Instr.noConfusion h, fun _ => show _ ≤ 6 by decide⟩

theorem illegal (w : Word) : Statement (.illegal w) := by
  intro h
  simp only [Instr.wf, decide_eq_true_eq] at h
  simp only [encode]
  exact ⟨fun h' => absurd h (by omega), fun h' => absurd rfl (h' w)⟩

end Sys2Proof.Laws.LegalWord
end

