-- ==== Sys2Proof/Tests/Slice0.lean ====
section
/-! SUPPORT. Tests against the spec's own vectors (95_test_vectors.md, named V-…) and worked examples (R…), and a witness for the
hypotheses of every statement. -/

namespace Sys2Proof.Tests

open Sys2Proof.Machine

/-! ## Small states -/

/-- act.key of CFG-A (V-KEY-1). -/
def keyA : List Byte :=
  [0x94, 0x6A, 0xFC, 0x04, 0x6F, 0x6D, 0x03, 0x7F, 0x4F, 0xAA, 0x80, 0xD5, 0xD8, 0x59, 0x43, 0xEF]

/-- act.key of CFG-T. -/
def keyT : List Byte :=
  [0x21, 0x84, 0x04, 0xA1, 0xF3, 0xE3, 0x7D, 0xBD, 0x22, 0xF3, 0x81, 0xD6, 0x49, 0x6C, 0x0C, 0x76]

/-- CFG-A as committed. -/
def actA : Act := ⟨true, 10, 6, 56, .aes128, 128, true, keyA⟩

/-- CFG-T as committed. -/
def actT : Act := ⟨true, 10, 6, 18, .tdes2, 64, false, keyT⟩

/-- An idle engine under `a` with the digits `ds`, MSGLEN, TLEN and the tweak of V-SRC-1. -/
def loaded (a : Act) (n : Word) (tlen : BitVec 4) (ds : List Nat) : State :=
  { State.reset with
    act := a, msglen := n, twctl := tlen, tweak0 := 0xD8E7920A, tweak1 := 0xFA330A73
    digits := Memory.writeFrom [] 0 (ds.map (BitVec.ofNat 32)) }

/-- The same with the command `i` accepted. -/
def inFlight (i : Instr) (a : Act) (n : Word) (tlen : BitVec 4) (ds : List Nat) : State := accept (encode i) (loaded a n tlen ds)

/-- After reset, the staging registers written and CONFIGURE accepted, with the key words of CFG-A. -/
def staged (r mn mx cf : Word) : State :=
  accept 1
    { State.reset with
      radix := r, minlen := mn, maxlen := mx, cfgr := Cfgr.ofWord cf
      keys := ⟨#[0xEF4359D8, 0xD580AA4F, 0x7F036D6F, 0x04FC6A94, 0, 0, 0, 0], rfl⟩ }

/-- Does the outcome go on, with a state that satisfies `p`? -/
def after (o : Host.Outcome State Fault Refusal) (p : State → Bool) : Bool :=
  match o with
  | .next s => p s
  | .fault _ => false
  | .refused _ => false

/-- The STATUS word after the outcome. -/
def statusAfter (o : Host.Outcome State Fault Refusal) : Option Word :=
  match o with
  | .next s => some s.statusWord
  | .fault _ => none
  | .refused _ => none

/-- The fault the outcome ends in. -/
def faultOf (o : Host.Outcome State Fault Refusal) : Option Fault :=
  match o with
  | .next _ => none
  | .fault f => some f
  | .refused _ => none

/-- The digits of V-SRC-1. -/
def srcX : List Nat := [8, 9, 0, 1, 2, 1, 2, 3, 4, 5, 6, 7, 8, 9, 0, 0, 0, 0]

def srcY : List Nat := [7, 5, 0, 9, 1, 8, 8, 1, 4, 0, 5, 8, 6, 5, 4, 6, 0, 7]

/-! ## Well-formedness and decoding -/

/-- WellFormed refuses an ILLEGAL that carries a legal word (R107). -/
theorem test_wf_refuses_legal_word : (List.range 7).all (fun k => !(Instr.illegal (BitVec.ofNat 32 k)).wf) = true := by decide

/-- It accepts every other term. -/
theorem test_wf_accepts :
    [Instr.nop, .configure, .ff3Enc, .ff3Dec, .bpsEnc, .bpsDec, .wipe, .illegal 7, .illegal 0x10, .illegal 0xFFFFFFFF].all Instr.wf = true := by
  decide

/-- Every constructor's word, bit by bit from R100 and R101: RSV (28 bits), then OP (4 bits). -/
theorem test_decode_every_constructor :
    decode ((0 : BitVec 28) ++ (0b0000 : BitVec 4)) = .nop ∧ decode ((0 : BitVec 28) ++ (0b0001 : BitVec 4)) = .configure ∧
    decode ((0 : BitVec 28) ++ (0b0010 : BitVec 4)) = .ff3Enc ∧ decode ((0 : BitVec 28) ++ (0b0011 : BitVec 4)) = .ff3Dec ∧
    decode ((0 : BitVec 28) ++ (0b0100 : BitVec 4)) = .bpsEnc ∧ decode ((0 : BitVec 28) ++ (0b0101 : BitVec 4)) = .bpsDec ∧
    decode ((0 : BitVec 28) ++ (0b0110 : BitVec 4)) = .wipe ∧
    decode ((0 : BitVec 28) ++ (0b1111 : BitVec 4)) = .illegal 0xF ∧
    decode ((1 : BitVec 28) ++ (0b0000 : BitVec 4)) = .illegal 0x10 := by decide

/-- Bits that are no command word are refused by name (R108). -/
theorem test_decode_bits :
    decodeBits 64 0 = .error (.tooLong 64) ∧ decodeBits 32 0x100000000 = .error (.notThatWide 32 0x100000000) ∧
    decodeTableWord 32 6 = some .wipe := by decide

/-- The constructors the host asks for, run as the first command after reset: STATUS after the step (R220, R222, R226, R242). -/
theorem test_placed_words_run :
    [0, 1, 2, 3, 4, 5, 6, 7].map (fun w => statusAfter (step (State.reset.withFetchWord 32 w))) =
      [some 0, some 0x1004, some 0x204, some 0x204, some 0x204, some 0x204, some 2, some 0x104] := by decide

/-! ## Datapath -/

/-- V-DP-1 to V-DP-7. -/
theorem test_num_str_rev :
    numRev 10 [1, 2, 3] = 321 ∧ numRev 10 [5, 6, 7, 8, 9, 0, 0, 0, 0] = 98765 ∧ numRev 2 [1, 0, 1, 1] = 13 ∧
    numRev 65536 [1, 2] = 131073 ∧ strRev 10 4 321 = [1, 2, 3, 0] ∧ strRev 10 9 237106499 = [9, 9, 4, 6, 0, 1, 7, 3, 2] ∧
    strRev 10 3 0 = [0, 0, 0] := by decide

/-- V-DP-8 to V-DP-14. -/
theorem test_reduce_combine :
    reduce (beBytes 16 0xDE7F3E4A210E3DFF346924FBFF750039) (10 ^ 9) = 804985401 ∧
    reduce (beBytes 8 0xCE0A1F53C2C37CD2) (10 ^ 9) = 190599378 ∧ combineEnc 432121098 804985401 (10 ^ 9) = 237106499 ∧
    combineDec 237106499 804985401 (10 ^ 9) = 432121098 ∧ combineDec 5 7 10 = 8 ∧ addDigit 10 7 5 = 2 ∧ subDigit 10 2 5 = 7 ∧
    [2, 18, 19, 35].map (fun n => (halfU n, halfV n)) = [(1, 1), (9, 9), (10, 9), (18, 17)] := by decide +kernel

/-- V-LIM-1, V-MIN-1. -/
theorem test_limit_minok :
    [(2, 128), (10, 128), (26, 128), (62, 128), (65536, 128), (2, 64), (10, 64), (62, 64), (65536, 64)].map (fun p => limit p.1 p.2) =
      [192, 56, 40, 32, 12, 64, 18, 10, 4] ∧
    [(10, 6), (10, 5), (7, 8), (7, 7), (2, 20), (2, 19), (1000, 2), (65536, 1), (999, 2)].map (fun p => minok p.1 p.2) =
      [true, false, true, false, true, false, true, false, false] := by decide +kernel

/-- V-TW-1 to V-TW-5, V-TW-8 to V-TW-10. -/
theorem test_tweak_split :
    split7 (beBytes 7 0xD8E7920AFA330A) = (beBytes 4 0xD8E79200, beBytes 4 0xFA330AA0) ∧
    split7 (beBytes 7 0x9A768A92F60E12) = (beBytes 4 0x9A768A90, beBytes 4 0xF60E1220) ∧
    split7 (beBytes 7 0x0123456789ABCD) = (beBytes 4 0x01234560, beBytes 4 0x89ABCD70) ∧
    split7 (beBytes 7 0xFFFFFFFFFFFFFF) = (beBytes 4 0xFFFFFFF0, beBytes 4 0xFFFFFFF0) ∧
    split8 (beBytes 8 0xD8E7920AFA330A73) = (beBytes 4 0xD8E7920A, beBytes 4 0xFA330A73) ∧
    perturb (beBytes 8 0) 1 = beBytes 8 0x0001000000010000 ∧
    perturb (beBytes 8 0xD8E7920AFA330A73) 0x13 = beBytes 8 0xD8F4920AFA200A73 ∧
    perturb (beBytes 8 0xD8E7920AFA330A73) 257 = perturb (beBytes 8 0xD8E7920AFA330A73) 1 := by decide +kernel

/-- V-TW-6, V-TW-7, V-TW-11, V-KEY-1, V-KEY-2. -/
theorem test_tweak_key :
    tweak 0 (tweakBytes 1 2) false = some (beBytes 7 0) ∧
    tweak 7 (tweakBytes 0xD8E7920A 0xFA330AFF) false = some (beBytes 7 0xD8E7920AFA330A) ∧ ff3TweakOk 8 false = false ∧
    loadKey .aes128 true (beBytes 32 (0xEF4359D8D580AA4F7F036D6F04FC6A94 * 2 ^ 128)) = keyA ∧
    loadKey .aes128 false (beBytes 32 (0xEF4359D8D580AA4F7F036D6F04FC6A94 * 2 ^ 128)) =
      beBytes 16 0xEF4359D8D580AA4F7F036D6F04FC6A94 := by decide +kernel

/-- The first round of V-F-TRACE-1 (R185): P and S, with AES. -/
theorem test_round_trace_aes :
    roundBlock 128 (beBytes 4 0xFA330A73) 0 (numRev 10 [5, 6, 7, 8, 9, 0, 0, 0, 0]) =
      beBytes 16 0xFA330A730000000000000000000181CD ∧
    ciph (blockEncrypt .aes128 keyA) (beBytes 16 0xFA330A730000000000000000000181CD) =
      beBytes 16 0xDE7F3E4A210E3DFF346924FBFF750039 := by decide +kernel

/-- V-F-TRACE-2: P and S, with TDEA. -/
theorem test_round_trace_tdea :
    roundBlock 64 (beBytes 4 0) 0 (numRev 10 [7, 5, 5, 3, 4, 0, 7, 1, 0]) = beBytes 8 0x01041065 ∧
    ciph (blockEncrypt .tdes2 keyT) (beBytes 8 0x01041065) = beBytes 8 0xCE0A1F53C2C37CD2 := by decide +kernel

/-! ## Commands -/

/-- V-SRC-1: STATUS 0x0000000A, the digits, the slot after them, and DONE_IRQ. -/
theorem test_ff3Enc_src1 :
    after (exec .ff3Enc (inFlight .ff3Enc actA 18 8 srcX)) (fun t =>
      t.message 19 == srcY ++ [0] && t.statusWord == 0x0A && t.irqStat == 1 && t.errInfo == 0) = true := by decide +kernel

/-- V-SRC-1, decrypted (R171). -/
theorem test_ff3Dec_src1 :
    after (exec .ff3Dec (inFlight .ff3Dec actA 18 8 srcY)) (fun t => t.message 19 == srcX ++ [0] && t.statusWord == 0x0A) = true := by
  decide +kernel

/-- V-BPS-3: one block and a tail of one digit, TDES2, null tweak. -/
theorem test_bpsEnc_tail :
    after (exec .bpsEnc (inFlight .bpsEnc actT 19 0 [3, 0, 7, 4, 1, 8, 5, 2, 9, 6, 3, 0, 7, 4, 1, 8, 5, 2, 9])) (fun t =>
      t.message 20 == [3, 3, 9, 2, 0, 8, 9, 1, 1, 2, 6, 7, 4, 4, 6, 2, 1, 9, 9, 0] && t.statusWord == 0x0A &&
        t.tweak0 == 0xD8E7920A) = true := by decide +kernel

/-- V-BPS-4, decrypted: two blocks, no tail; the literal order of the document fails on it (V-BPS-7). -/
theorem test_bpsDec_two_blocks :
    after (exec .bpsDec (inFlight .bpsDec actT 36 0
      [3, 0, 1, 3, 8, 5, 0, 9, 4, 1, 7, 2, 2, 2, 6, 2, 6, 4, 8, 0, 9, 8, 2, 2, 4, 5, 2, 5, 2, 7, 0, 5, 9, 6, 3, 2])) (fun t =>
      t.message 36 == [3, 0, 7, 4, 1, 8, 5, 2, 9, 6, 3, 0, 7, 4, 1, 8, 5, 2, 9, 6, 3, 0, 7, 4, 1, 8, 5, 2, 9, 6, 3, 0, 7, 4, 1, 8]) = true := by
  decide +kernel

/-- V-F-ERR-1 to V-F-ERR-9: STATUS, ERRINFO, and the digits unchanged. -/
theorem test_ff3_errors :
    [({ actA with valid := false }, 18, 8, srcX, 0x204, 0), (actT, 18, 0, srcX, 0x200C, 0), (actA, 18, 5, srcX, 0x210C, 0),
      ({ actA with legacy := false }, 18, 8, srcX, 0x210C, 0), (actA, 5, 7, srcX, 0x220C, 0), (actA, 57, 7, srcX, 0x220C, 0),
      (actA, 6, 7, [1, 2, 3, 10, 5, 11], 0x230C, 3), (actA, 5, 5, [10], 0x210C, 0),
      (actA, 18, 7, srcX.take 17 ++ [0xFFFFFFFF], 0x230C, 17)].all (fun c =>
        after (exec .ff3Enc (inFlight .ff3Enc c.1 c.2.1 c.2.2.1 c.2.2.2.1)) (fun t =>
          t.statusWord == c.2.2.2.2.1 && t.errInfo == c.2.2.2.2.2 && t.irqStat == 2 &&
            t.digits == (inFlight .ff3Enc c.1 c.2.1 c.2.2.1 c.2.2.2.1).digits)) = true := by decide +kernel

/-- V-BPS-ERR-1, 2, 3, 5. -/
theorem test_bps_errors :
    [(35, 7, [0], 0x210C, 0), (5, 0, [0], 0x220C, 0), (1025, 0, [0], 0x220C, 0),
      (35, 0, List.replicate 20 0 ++ [10], 0x230C, 20)].all (fun c =>
        after (exec .bpsDec (inFlight .bpsDec actT c.1 c.2.1 c.2.2.1)) (fun t =>
          t.statusWord == c.2.2.2.1 && t.errInfo == c.2.2.2.2)) = true := by decide +kernel

/-- V-CFG-1 to V-CFG-14: STATUS after CONFIGURE. -/
theorem test_configure :
    [(10, 6, 56, 0x301, 0x0A), (10, 6, 56, 0, 0x1004), (10, 6, 56, 6, 0x1104), (1, 6, 56, 0x301, 0x1204), (65537, 2, 12, 0x301, 0x1204),
      (10, 5, 56, 0x301, 0x1304), (10, 20, 10, 0x301, 0x1404), (10, 6, 57, 0x301, 0x1504), (10, 6, 19, 4, 0x1504), (10, 6, 18, 4, 0x0A),
      (0, 0, 0, 0, 0x1004), (65536, 2, 12, 0x303, 0x0A), (62, 4, 32, 1, 0x0A), (10, 6, 6, 1, 0x0A)].all (fun c =>
        statusAfter (exec .configure (staged c.1 c.2.1 c.2.2.1 c.2.2.2.1)) == some c.2.2.2.2) = true := by decide +kernel

/-- V-CFG-1 commits CFG-A (V-KEY-1). -/
theorem test_configure_commits :
    after (exec .configure (staged 10 6 56 0x301)) (fun t => decide (t.act = actA)) = true := by decide +kernel

/-- V-CTL-1: a NOP after a successful command leaves STATUS and clears CMD. -/
theorem test_nop :
    after (exec .nop { State.reset with cmd := 2, act := actA, status := ⟨false, true, false, false, false, false, 0⟩ })
      (fun t => t.statusWord == 0x0A && t.cmd == 0) = true := by decide

/-- V-CTL-2 to V-CTL-4: BAD_CMD, CMD keeps the word, the digits are unchanged. -/
theorem test_illegal :
    [0x7, 0x12, 0x80000002].all (fun w =>
      after (step { accept w (loaded actA 18 8 srcX) with turns := [] }) (fun t =>
        t.statusWord == 0x10C && t.cmd == w && t.digits == (loaded actA 18 8 srcX).digits)) = true := by decide

/-- V-CTL-5: WIPE. -/
theorem test_wipe :
    after (exec .wipe { inFlight .wipe actA 18 8 [7] with keys := Vector.replicate 8 5, irqEn := 3 }) (fun t =>
      t.statusWord == 2 && decide (t.digits = []) && decide (t.keys = Vector.replicate 8 0) && t.tweak0 == 0 && t.tweak1 == 0 &&
        t.msglen == 18 && t.twctl == 8 && t.irqEn == 3 && t.act.key.all (· == 0)) = true := by decide

/-! ## Bus -/

/-- V-REG-1 to V-REG-3, V-REG-5, V-REG-13, V-REG-15. -/
theorem test_reset_reads :
    [0x000, 0x004, 0x008, 0x00C, 0x014, 0x080, 0x1000, 0x2000].map (fun off => (busRead off State.reset).1) =
      [0x46463331, 1, 0x001F0400, 0, 0, 0, 0, 0] := by decide

/-- V-REG-4, V-REG-6, V-REG-7, V-REG-14: a write, then a read. -/
theorem test_write_read :
    [(0x060, 0x12345678, 0), (0x02C, 0xFFFFFFFF, 0x307), (0x034, 0xFFFFFFFF, 0xF), (0x084, 0xFFFFFFFF, 7), (0x00C, 5, 0)].all (fun c =>
      after (busWrite c.1 c.2.1 State.reset) (fun t => (busRead c.1 t).1 == c.2.2)) = true := by decide

/-- V-REG-8 to V-REG-10. -/
theorem test_irq :
    after (busWrite 0x080 1 { State.reset with irqStat := 3 }) (fun t => (busRead 0x080 t).1 == 2) = true ∧
    ({ State.reset with irqStat := 2, irqEn := 1 } : State).irq = false ∧
    ({ State.reset with irqStat := 2, irqEn := 2 } : State).irq = true := by decide

/-- V-REG-11, V-REG-12, and an access outside the engine's space. -/
theorem test_bus_errors :
    faultOf (step { State.reset with host := [.wr .byte 0x020 1] }) = some (.busError .byte 0x020) ∧
    faultOf (step { State.reset with host := [.rd .word 0x022] }) = some (.busError .word 0x022) ∧
    faultOf (step { State.reset with host := [.rd .word 0x8000] }) = some (.outsideEngine 0x8000) := by decide

/-- PROG-4, accesses 3 to 6, each from the state with FF3_ENC accepted: DIGIT reads 0, CMD and DIGIT writes are dropped. -/
theorem test_busy_hazard :
    let s := inFlight .ff3Enc actA 18 8 srcX
    (busRead 0x1000 s).1 = 0 ∧ (busRead 0x1000 s).2.statusWord = 0x49 ∧
    after (busWrite 0x010 3 s) (fun t => t.statusWord == 0x29 && t.cmd == 2) = true ∧
    after (busWrite 0x1000 5 s) (fun t => t.statusWord == 0x49 && t.digit 0 == 8) = true ∧
    after (busWrite 0x030 6 s) (fun t => t.statusWord == 0x09 && t.msglen == 6 && t.snap.n == 18) = true := by decide

/-- The map of R30 and the offset of each register agree. -/
theorem test_offsets :
    controlRegs.all (fun p => p.2.offset == some p.1) = true ∧ (Reg.digit 3).offset = some 0x100C ∧ regAt 1024 0x100C = .digit 3 := by
  decide

/-! ## The informative arithmetic (R124, R134, R135) -/

/-- 2^96 is outside the 96-bit accumulator (R124, 90_conflicts.md C8), 10^9 and 3^60 inside; CLZ of zero is 96. -/
theorem test_big_acc :
    radixPow 2 96 = none ∧ (radixPow 10 9).map BigAcc.value = some 1000000000 ∧ (radixPow 3 60).map BigAcc.value = some (3 ^ 60) ∧
    (BigAcc.ofNat 0).clz = 96 ∧ (BigAcc.ofNat 1).clz = 95 ∧ (BigAcc.ofNat 1).shl 96 = none ∧
    (reduce128 0xDE7F3E4A210E3DFF346924FBFF750039 (BigAcc.ofNat 1000000000)).map BigAcc.value = some 804985401 := by decide +kernel

/-! ## Witnesses: concrete states and operands that meet the hypotheses of the statements -/

theorem actA_ok : actA.Ok := by constructor <;> decide +kernel

theorem actT_ok : actT.Ok := by constructor <;> decide +kernel

/-- A command accepted by a configured engine is in a good state. -/
theorem inFlight_inv {i : Instr} {a : Act} {n : Word} {tlen : BitVec 4} {ds : List Nat} (hi : decode (encode i) ≠ .nop)
    (hv : a.valid = true) (ha : a.Ok) (hd : ds.length ≤ 1024) : (inFlight i a n tlen ds).Inv where
  depth := ⟨show 192 ≤ 1024 by decide, show 1024 ≤ 4096 by decide⟩
  digitsWf := Memory.wf_writeFrom Memory.wf_nil
  digitsIn := Memory.writeFrom_in (by simp) (show 0 + (ds.map (BitVec.ofNat 32)).length ≤ 1024 by simpa using hd)
  actOk := fun _ => ha
  keyGone := fun h => by
    have : a.valid = false := h
    rw [hv] at this
    cases this
  notBoth := by simp [inFlight]
  noCode := fun _ => rfl
  code := fun h => by cases h
  info := fun h => absurd rfl h
  running := fun _ => ⟨rfl, rfl⟩
  inFlight := fun _ => ⟨rfl, hi⟩
  snapSizes := fun _ => ⟨by simp [Tests.inFlight, sample, tweakBytes, wordBytes], by
    simp [Tests.inFlight, sample, keyBytes, loaded, State.reset, wordBytes]⟩
  notFatal := rfl

/-- The state of V-SRC-1 just before FF3_ENC completes. -/
def wAes (i : Instr) : State := inFlight i actA 18 8 srcX

/-- CFG-T with a message of 19 digits, one more than M. -/
def wTdes (i : Instr) : State := inFlight i actT 19 0 [3, 0, 7, 4, 1, 8, 5, 2, 9, 6, 3, 0, 7, 4, 1, 8, 5, 2, 9]

theorem wAes_inv : (wAes .ff3Enc).Inv ∧ (wAes .ff3Dec).Inv ∧ (wAes .wipe).Inv ∧ (wAes (.illegal 7)).Inv ∧ (wAes .configure).Inv :=
  ⟨inFlight_inv (by decide) rfl actA_ok (by decide), inFlight_inv (by decide) rfl actA_ok (by decide),
    inFlight_inv (by decide) rfl actA_ok (by decide), inFlight_inv (by decide) rfl actA_ok (by decide),
    inFlight_inv (by decide) rfl actA_ok (by decide)⟩

theorem wTdes_inv : (wTdes .bpsEnc).Inv ∧ (wTdes .bpsDec).Inv :=
  ⟨inFlight_inv (by decide) rfl actT_ok (by decide), inFlight_inv (by decide) rfl actT_ok (by decide)⟩

/-- An engine stuck after INTERNAL. -/
def wFatal : State := { State.reset with status := ⟨true, false, true, true, false, false, 0xF0⟩, cmd := 2 }

/-- A state no CONFIGURE leads to, in which a Feistel call overflows: 10^50 > 2^96. -/
def wOverflow : State := inFlight .ff3Enc { actA with maxlen := 100 } 100 0 []

theorem witness_DecodeAndEncodeAgree : (Instr.illegal 7).wf = true ∧ Instr.wipe.wf = true := by decide

theorem witness_IllegalWordsAreAllTheOthers :
    6 < (7 : Word).toNat ∧ rsvField 0x10 ≠ 0 ∧ decode 7 = .illegal 7 ∧ 6 < (0xFFFFFFFF : Word).toNat := by decide

theorem witness_StepRunsTheCommandInFlight :
    ((wAes .wipe).status.busy = true ∧ (wAes .wipe).status.fatal = false ∧ (wAes .wipe).turns = [] ∧
      ({ wAes .wipe with turns := [.engine] } : State).turns = [.engine]) ∧
    (State.reset.status.busy = false ∧ State.reset.turns = []) ∧ (wFatal.status.fatal = true ∧ wFatal.turns = []) ∧
    ({ State.reset with turns := [.host], host := [.wr .word 0x010 0] } : State).host = [.wr .word 0x010 0] ∧
    ({ State.reset with turns := [.host], host := [.wr .word 0x010 0] } : State).turns = [.host] ∧ decode 0 = .nop := by
  refine ⟨⟨rfl, rfl, rfl, rfl⟩, ⟨rfl, rfl⟩, ⟨rfl, rfl⟩, rfl, rfl, rfl⟩

theorem witness_PlacedWordRunsNext : decode 7 ≠ .nop ∧ decode 0 = .nop := by decide

theorem witness_CommandWriteIsAccepted : State.reset.status.busy = false ∧ State.reset.status.fatal = false ∧ (1 : Word) ≠ 0 := by decide

theorem witness_CommandWriteIsDropped :
    wFatal.status.fatal = true ∧ (wAes .ff3Enc).status.fatal = false ∧ (wAes .ff3Enc).status.busy = true := ⟨rfl, rfl, rfl⟩

/-- The first and the last slot; a register that is neither DIGIT nor CMD nor STATUS; and STATUS itself. -/
theorem witness_AccessWhileBusy :
    (wAes .ff3Enc).status.busy = true ∧ 0 < (wAes .ff3Enc).dbufDepth ∧ 1023 < (wAes .ff3Enc).dbufDepth ∧
    (wAes .ff3Enc).dbufDepth ≤ 4096 ∧ (∀ j, regAt (wAes .ff3Enc).dbufDepth 0x030 ≠ .digit j) ∧
    regAt (wAes .ff3Enc).dbufDepth 0x030 ≠ .cmd ∧ regAt (wAes .ff3Enc).dbufDepth 0x030 ≠ .status ∧
    (∀ j, regAt (wAes .ff3Enc).dbufDepth 0x014 ≠ .digit j) ∧ regAt (wAes .ff3Enc).dbufDepth 0x014 ≠ .cmd := by
  refine ⟨rfl, by decide, by decide, by decide, nofun, nofun, nofun, nofun, nofun⟩

theorem witness_RunningCommandIsIsolated :
    (wAes .ff3Enc).status.busy = true ∧ ∃ t, hostTurn { wAes .ff3Enc with host := [.wr .word 0x030 6] } = .next t := ⟨rfl, _, rfl⟩

/-- Two states that differ in MSGLEN and TWCTL, but not in the snapshot. -/
theorem witness_ResultDependsOnlyOnSnapshot :
    Instr.wipe ≠ .nop ∧ (∃ t, exec .wipe (wAes .wipe) = .next t) ∧
    ({ wAes .wipe with msglen := 6, twctl := 0 } : State).snap = (wAes .wipe).snap ∧
    ({ wAes .wipe with msglen := 6, twctl := 0 } : State).act = (wAes .wipe).act ∧
    ({ wAes .wipe with msglen := 6, twctl := 0 } : State).digits = (wAes .wipe).digits ∧
    ({ wAes .wipe with msglen := 6, twctl := 0 } : State).msglen ≠ (wAes .wipe).msglen :=
  ⟨nofun, ⟨_, rfl⟩, rfl, rfl, rfl, by decide⟩

theorem witness_IdentityRegisters : State.reset.dbufDepth ≤ 4096 ∧ ({ State.reset with dbufDepth := 4096 } : State).dbufDepth ≤ 4096 := by
  decide

/-- The last slot of the smallest and of the largest buffer. -/
theorem witness_WrittenRegistersReadBack :
    191 < ({ State.reset with dbufDepth := 192 } : State).dbufDepth ∧ 4095 < ({ State.reset with dbufDepth := 4096 } : State).dbufDepth ∧
    State.reset.status.busy = false ∧ State.reset.digits.wf := ⟨by decide, by decide, rfl, Memory.wf_nil⟩

/-- One offset of each reserved range, at both ends. -/
theorem witness_ReservedSpaceReadsZero :
    State.reset.status.busy = false ∧ State.reset.status.fatal = false ∧ State.reset.dbufDepth ≤ 4096 ∧
    [0x00C, 0x01C, 0x038, 0x03C, 0x048, 0x05C, 0x088, 0x0FFC, 0x2000, 0x7FFC].all (fun off => off % 4 == 0) = true ∧
    [0x00C, 0x01C, 0x038, 0x03C, 0x048, 0x05C, 0x088, 0x0FFC, 0x2000, 0x7FFC].all (fun off => regAt 1024 off == .reserved) = true := by
  decide

theorem witness_SubWordAccessIsABusError :
    (0x7FFF < 0x8000 ∧ 0x7FFF % 4 ≠ 0) ∧ (0x020 < 0x8000 ∧ Width.byte ≠ .word) ∧
    ({ State.reset with host := [.wr .byte 0x020 1] } : State).host = .wr .byte 0x020 1 :: [] ∧
    ({ State.reset with host := [.rd .word 0x7FFF] } : State).host = .rd .word 0x7FFF :: [] := ⟨by decide, by decide, rfl, rfl⟩

theorem witness_AlignedAccessesAreServed :
    0x7FFC < 0x8000 ∧ 0x7FFC % 4 = 0 ∧
    ({ State.reset with host := [.wr .word 0x7FFC 1] } : State).host = .wr .word 0x7FFC 1 :: [] ∧
    ({ State.reset with host := [.rd .word 0] } : State).host = .rd .word 0 :: [] := ⟨by decide, by decide, rfl, rfl⟩

/-- A read that does change the state: DIGIT[0] while BUSY = 1. -/
theorem witness_ReadsHaveNoSideEffects :
    (busRead 0x1000 (wAes .ff3Enc)).2 ≠ wAes .ff3Enc ∧ (wAes .ff3Enc).status.busy = true ∧
    regAt (wAes .ff3Enc).dbufDepth 0x1000 = .digit 0 ∧ regAt (wAes .ff3Enc).dbufDepth 0x1FFC = .digit 1023 := by decide

/-- An idle engine, and one with a command in flight. -/
theorem witness_NopOnlySetsCmd :
    State.reset.status.fatal = false ∧ State.reset.status.busy = false ∧ (wAes .wipe).status.fatal = false ∧
    (wAes .wipe).status.busy = true := by decide

theorem witness_IllegalCommandRaisesBadCmd : 6 < (7 : Word).toNat ∧ rsvField 0x10 ≠ 0 ∧ rsvField 0x80000002 ≠ 0 := by decide

/-- CFG-A, and the largest MAXLEN of radix 2 and 65536 (r^(LIMIT/2) = 2^96). -/
theorem witness_ConfigureCommits :
    [staged 10 6 56 0x301, staged 2 20 192 0x301, staged 65536 2 12 1].all (fun s =>
      cipherOf s.snap.cfgr.cipher == some .aes128 && decide (2 ≤ s.snap.radix.toNat) && decide (s.snap.radix.toNat ≤ 65536) &&
        decide (2 ≤ s.snap.minlen.toNat) && decide (10 ^ 6 ≤ s.snap.radix.toNat ^ s.snap.minlen.toNat) &&
        decide (s.snap.minlen.toNat ≤ s.snap.maxlen.toNat) &&
        decide (s.snap.maxlen.toNat ≤ limit s.snap.radix.toNat (blockBits .aes128))) = true := by decide +kernel

/-- A snapshot for each failing check, at its boundary. -/
theorem witness_ConfigureFailsByFirstCheck :
    (staged 10 6 56 0).snap.cfgr.cipher = 0 ∧ (staged 10 6 56 6).snap.cfgr.cipher = 6 ∧ (staged 10 6 56 7).snap.cfgr.cipher = 7 ∧
    cipherOf (staged 1 6 56 1).snap.cfgr.cipher = some .aes128 ∧ (staged 1 6 56 1).snap.radix.toNat < 2 ∧
    65536 < (staged 65537 6 56 1).snap.radix.toNat ∧
    ¬10 ^ 6 ≤ (staged 10 5 56 1).snap.radix.toNat ^ (staged 10 5 56 1).snap.minlen.toNat ∧
    10 ^ 6 ≤ (staged 10 6 5 1).snap.radix.toNat ^ (staged 10 6 5 1).snap.minlen.toNat ∧
    (staged 10 6 5 1).snap.maxlen.toNat < (staged 10 6 5 1).snap.minlen.toNat ∧
    limit (staged 10 6 57 1).snap.radix.toNat (blockBits .aes128) < (staged 10 6 57 1).snap.maxlen.toNat := by decide +kernel

/-- V-SRC-1 (TLEN = 8, legacy), n = minlen with a null tweak, and n = maxlen with a 7-byte tweak. -/
theorem witness_Ff3EncEncryptsInPlace :
    (wAes .ff3Enc).Inv ∧ (wAes .ff3Enc).act.valid = true ∧ (wAes .ff3Enc).act.bs = 128 ∧ ff3TweakAccepted (wAes .ff3Enc) ∧
    (wAes .ff3Enc).act.minlen ≤ (wAes .ff3Enc).snap.n.toNat ∧ (wAes .ff3Enc).snap.n.toNat ≤ (wAes .ff3Enc).act.maxlen ∧
    digitsBelowRadix (wAes .ff3Enc) ∧ ff3TweakAccepted (inFlight .ff3Enc actA 6 0 []) ∧ ff3TweakAccepted (inFlight .ff3Enc actA 56 7 []) :=
  ⟨wAes_inv.1, rfl, rfl, .inr (.inr ⟨rfl, rfl⟩), by decide, by decide, by unfold digitsBelowRadix; decide +kernel, .inl rfl, .inr (.inl rfl)⟩

/-- V-SRC-1's configuration with TLEN = 8; n = minlen with a null tweak, and n = maxlen with a 7-byte tweak. -/
theorem witness_Ff3DecDecryptsInPlace :
    (wAes .ff3Dec).Inv ∧ (wAes .ff3Dec).act.valid = true ∧ (wAes .ff3Dec).act.bs = 128 ∧ ff3TweakAccepted (wAes .ff3Dec) ∧
    (wAes .ff3Dec).act.minlen ≤ (wAes .ff3Dec).snap.n.toNat ∧ (wAes .ff3Dec).snap.n.toNat ≤ (wAes .ff3Dec).act.maxlen ∧
    digitsBelowRadix (wAes .ff3Dec) ∧ ff3TweakAccepted (inFlight .ff3Dec actA 6 0 []) ∧ ff3TweakAccepted (inFlight .ff3Dec actA 56 7 []) :=
  ⟨wAes_inv.2.1, rfl, rfl, .inr (.inr ⟨rfl, rfl⟩), by decide, by decide, by unfold digitsBelowRadix; decide +kernel, .inl rfl, .inr (.inl rfl)⟩

/-- TDES2, L = M + 1, null tweak; and the 8-byte tweak without LEGACY. -/
theorem witness_BpsEncEncryptsInPlace :
    (wTdes .bpsEnc).Inv ∧ (wTdes .bpsEnc).act.valid = true ∧ bpsTweakAccepted (wTdes .bpsEnc) ∧
    (wTdes .bpsEnc).act.minlen ≤ (wTdes .bpsEnc).snap.n.toNat ∧ (wTdes .bpsEnc).snap.n.toNat ≤ (wTdes .bpsEnc).dbufDepth ∧
    digitsBelowRadix (wTdes .bpsEnc) ∧ bpsTweakAccepted (inFlight .bpsEnc actT 19 8 []) :=
  ⟨wTdes_inv.1, rfl, .inl rfl, by decide, by decide, by unfold digitsBelowRadix; decide +kernel, .inr rfl⟩

theorem witness_BpsDecDecryptsInPlace :
    (wTdes .bpsDec).Inv ∧ (wTdes .bpsDec).act.valid = true ∧ bpsTweakAccepted (wTdes .bpsDec) ∧
    (wTdes .bpsDec).act.minlen ≤ (wTdes .bpsDec).snap.n.toNat ∧ (wTdes .bpsDec).snap.n.toNat ≤ (wTdes .bpsDec).dbufDepth ∧
    digitsBelowRadix (wTdes .bpsDec) :=
  ⟨wTdes_inv.2, rfl, .inl rfl, by decide, by decide, by unfold digitsBelowRadix; decide +kernel⟩

/-- Each clause at a boundary: no configuration, TDES, TLEN = 8 without LEGACY, n = minlen − 1 and maxlen + 1, and a first digit equal to
the radix in the last slot of the message. -/
theorem witness_Ff3ErrorsInOrder :
    (loaded { actA with valid := false } 18 7 []).act.valid = false ∧ (inFlight .ff3Enc actT 18 7 []).act.bs ≠ 128 ∧
    ¬ff3TweakAccepted (inFlight .ff3Enc { actA with legacy := false } 18 8 []) ∧
    (inFlight .ff3Enc actA 5 7 []).snap.n.toNat < (inFlight .ff3Enc actA 5 7 []).act.minlen ∧
    (inFlight .ff3Enc actA 57 7 []).act.maxlen < (inFlight .ff3Enc actA 57 7 []).snap.n.toNat ∧
    (5 < (inFlight .ff3Enc actA 6 7 [0, 0, 0, 0, 0, 10]).snap.n.toNat ∧
      (inFlight .ff3Enc actA 6 7 [0, 0, 0, 0, 0, 10]).act.r ≤ ((inFlight .ff3Enc actA 6 7 [0, 0, 0, 0, 0, 10]).digit 5).toNat ∧
      ∀ k < 5, ((inFlight .ff3Enc actA 6 7 [0, 0, 0, 0, 0, 10]).digit k).toNat < (inFlight .ff3Enc actA 6 7 [0, 0, 0, 0, 0, 10]).act.r) := by
  refine ⟨rfl, by decide, ?_, by decide, by decide, by decide, by decide, by decide +kernel⟩
  rintro (h | h | ⟨-, h⟩) <;> revert h <;> decide

/-- Each clause at a boundary: no configuration, a 7-byte tweak, L = minlen − 1 and DBUF_DEPTH + 1, and a digit equal to the radix. -/
theorem witness_BpsErrorsInOrder :
    (loaded { actT with valid := false } 18 0 []).act.valid = false ∧ ¬bpsTweakAccepted (inFlight .bpsEnc actT 18 7 []) ∧
    (inFlight .bpsEnc actT 5 0 []).snap.n.toNat < (inFlight .bpsEnc actT 5 0 []).act.minlen ∧
    (inFlight .bpsEnc actT 1025 0 []).dbufDepth < (inFlight .bpsEnc actT 1025 0 []).snap.n.toNat ∧
    (0 < (inFlight .bpsEnc actT 1024 0 [10]).snap.n.toNat ∧
      (inFlight .bpsEnc actT 1024 0 [10]).snap.n.toNat ≤ (inFlight .bpsEnc actT 1024 0 [10]).dbufDepth ∧
      (inFlight .bpsEnc actT 1024 0 [10]).act.r ≤ ((inFlight .bpsEnc actT 1024 0 [10]).digit 0).toNat) := by
  refine ⟨rfl, ?_, by decide, by decide, by decide, by decide, by decide⟩
  rintro (h | h) <;> revert h <;> decide

/-- A good state whose command errs, and a good state whose CONFIGURE fails (CIPHER = NONE). -/
theorem witness_ErrorsArePrecise :
    (Instr.illegal 7 ≠ .nop ∧ (wAes (.illegal 7)).Inv ∧
      ∃ t, exec (.illegal 7) (wAes (.illegal 7)) = .next t ∧ t.status.err = true) ∧
    Instr.configure ≠ .nop ∧ (wAes .configure).Inv ∧ ∃ t, exec .configure (wAes .configure) = .next t ∧ t.status.err = true :=
  ⟨⟨nofun, wAes_inv.2.2.2.1, _, rfl, rfl⟩, nofun, wAes_inv.2.2.2.2, _, rfl, rfl⟩

theorem witness_EveryCommandCompletes : Instr.ff3Enc ≠ .nop ∧ (wAes .ff3Enc).Inv := ⟨nofun, wAes_inv.1⟩

/-- A good state and a step of it. -/
theorem witness_StepKeepsGoodStates : (wAes .wipe).Inv ∧ ∃ t, step (wAes .wipe) = .next t := ⟨wAes_inv.2.2.1, _, rfl⟩

theorem witness_OnlyConfigureWipeAndResetWriteAct :
    (∃ t, exec (.illegal 7) (wAes (.illegal 7)) = .next t) ∧
    (∃ t, hostTurn { wAes .wipe with host := [.wr .word 0x060 6] } = .next t) ∧
    ∃ t, step (wAes .wipe) = .next t ∧ t.act ≠ (wAes .wipe).act := ⟨⟨_, rfl⟩, ⟨_, rfl⟩, _, rfl, by decide⟩

/-- BUSY rises by an acceptance, and falls by a completion and by reset. -/
theorem witness_BusyChangesOnlyByAcceptanceCompletionReset :
    (∃ t, step { State.reset with host := [.wr .word 0x010 6] } = .next t ∧ State.reset.status.busy = false ∧ t.status.busy = true) ∧
    (∃ t, step (wAes .wipe) = .next t ∧ (wAes .wipe).status.busy = true ∧ t.status.busy = false) ∧
    ∃ t, step { wAes .wipe with turns := [.reset] } = .next t ∧ t.status.busy = false := ⟨⟨_, rfl, rfl, rfl⟩, ⟨_, rfl, rfl, rfl⟩, _, rfl, rfl⟩

/-- FATAL = 1; FATAL cleared by reset; FATAL set by a completion that overflows. -/
theorem witness_FatalStopsTheEngineUntilReset :
    wFatal.status.fatal = true ∧
    (∃ t, step { wFatal with turns := [.reset] } = .next t ∧ t.status.fatal = false) ∧
    wOverflow.status.fatal = false ∧ after (step wOverflow) (fun t => t.status.fatal) = true := by
  refine ⟨rfl, ⟨_, rfl, rfl⟩, rfl, by decide +kernel⟩

/-- CMD_OVR, BUSY_ACC and IRQ_STAT's bits set, then cleared: by an acceptance, by a W1C write, by reset. -/
theorem witness_StickyBitsAreClearedOnlyAsStated :
    let s : State := { State.reset with status := ⟨false, true, false, false, true, true, 0⟩, irqStat := 7 }
    after (step { s with host := [.wr .word 0x010 6] }) (fun t => !t.status.cmdOvr && !t.status.busyAcc) = true ∧
    after (step { s with host := [.wr .word 0x080 4] }) (fun t => !t.irqStat.getLsbD 2 && t.irqStat.getLsbD 0) = true ∧
    after (step { s with turns := [.reset] }) (fun t => !t.status.cmdOvr && !t.irqStat.getLsbD 0) = true := by decide

theorem witness_ResetClearsEverything :
    ({ wAes .wipe with turns := [.reset] } : State).turns = .reset :: [] ∧ ({ wAes .wipe with turns := [.reset] } : State).dbufDepth ≤ 4096 ∧
    0x7FFC % 4 = 0 := ⟨rfl, by decide, by decide⟩

theorem witness_CommandInFlightCompletes :
    (wAes .ff3Enc).Inv ∧ (wAes .ff3Enc).status.busy = true ∧ (wAes .ff3Enc).turns = [] ∧
    ({ wAes .ff3Enc with turns := [.engine, .host] } : State).turns = .engine :: [.host] := ⟨wAes_inv.1, rfl, rfl, rfl⟩

/-- A WAIT with a command in flight, and one with none. -/
theorem witness_WaitEndsAfterCompletion :
    (∃ s : State, s.Inv ∧ s.turns = [] ∧ s.host = waitOp :: [] ∧ s.status.busy = true) ∧
    ∃ s : State, s.Inv ∧ s.turns = [] ∧ s.host = waitOp :: [] ∧ s.status.busy = false := by
  obtain ⟨h1, h2, h3, h4, h5, h6, h7, h8, h9, h10, h11, h12, h13⟩ := wAes_inv.1
  refine ⟨⟨{ wAes .ff3Enc with host := [waitOp] }, ⟨h1, h2, h3, h4, h5, h6, h7, h8, h9, h10, h11, h12, h13⟩, rfl, rfl, rfl⟩,
    { wAes .ff3Enc with host := [waitOp], status := ⟨false, true, false, false, false, false, 0⟩ },
    ⟨h1, h2, h3, h4, h5, by simp, by simp, by simp, fun h => absurd rfl h, by simp, by simp, by simp, rfl⟩, rfl, rfl, rfl⟩

theorem witness_NumRevIsTheWeightedSum : digitString 10 [1, 2, 9] ∧ digitString 2 [] := by
  constructor <;> simp [digitString]

theorem witness_NumRevAndStrRevAreInverse :
    2 ≤ 10 ∧ 1 ≤ 3 ∧ [0, 0, 9].length = 3 ∧ digitString 10 [0, 0, 9] ∧ 999 < 10 ^ 3 := by
  refine ⟨by decide, by decide, rfl, by simp [digitString], by decide⟩

theorem witness_RoundCombinationsUndoEachOther : 9 < 10 ∧ 0 < 10 ∧ 5 < 10 := by decide

theorem witness_LimitIsTheLargestExponent : 2 ≤ 2 ∧ 2 ≤ 65536 ∧ (64 = 128 ∨ 64 = 64) ∧ 2 ^ 96 ≤ 2 ^ (128 - 32) := by decide

theorem witness_MinokIsTheFormula : (1000, 65536, 2) ∈ [(1000, 65536, 2)] ∧ 1000 ≤ 65536 ∧ 1 < 2 := by decide

/-- n = maxlen under CFG-A; and radix 2 with maxlen 192, where r^u = 2^96. -/
theorem witness_HalvesFitTheTrailer :
    (actA.Ok ∧ 56 ≤ actA.maxlen ∧ digitString actA.r (List.replicate 28 9) ∧ (List.replicate 28 9).length = halfU 56) ∧ Act.Ok ⟨true, 2, 20, 192, .aes128, 128, false, keyA⟩ ∧ 2 ^ halfU 192 = 2 ^ (128 - 32) :=
  ⟨⟨actA_ok, by decide, by simp [digitString, actA], by decide⟩, by constructor <;> decide +kernel, by decide⟩

theorem witness_SevenByteTweakSplit : (beBytes 7 0xD8E7920AFA330A).length = 7 := by decide

theorem witness_PerturbationIsOneByteCounter : (beBytes 8 0xD8E7920AFA330A73).length = 8 ∧ 7 < 8 := by decide

theorem witness_KeyIsLoadedFromTheKeyRegisters : 3 < 4 ∧ 31 < keyLen .aes256 ∧ 15 < keyLen .tdes2 := by decide

theorem witness_FeistelRoundTrip : 2 ≤ 10 ∧ 2 ≤ srcX.length ∧ digitString 10 srcX := by
  refine ⟨by decide, by decide, by simp [digitString, srcX]⟩

/-- L = M and L = M + 1. -/
theorem witness_BpsRoundTrip : 2 ≤ 10 ∧ 2 ≤ 17 ∧ 2 ≤ srcX.length ∧ digitString 10 srcX ∧ srcX.length ≤ 18 ∧ ¬srcX.length ≤ 17 := by
  refine ⟨by decide, by decide, by decide, by simp [digitString, srcX], by decide, by decide⟩

theorem witness_BigAccArithmeticIsExact : (BigAcc.ofNat 1).value ≠ 0 := by decide

theorem witness_ShiftSubtractReducerIsExact : 2 ^ 128 - 1 < 2 ^ 128 ∧ (BigAcc.ofNat 1).value ≠ 0 := by decide

/-- A completion with IN_DIGIT in the last slot of the message, one with another error, an acceptance after IN_DIGIT, and a reset. -/
theorem witness_ErrInfoNamesTheBadDigit :
    Instr.ff3Enc ≠ .nop ∧
    after (exec .ff3Enc (inFlight .ff3Enc actA 6 7 [0, 0, 0, 0, 0, 10])) (fun t => t.status.errCode == 0x23 && (busRead 0x018 t).1 == 5) = true ∧
    after (exec .ff3Enc (inFlight .ff3Enc actA 5 7 [10])) (fun t => t.status.errCode == 0x22 && (busRead 0x018 t).1 == 0) = true ∧
    let s : State := { State.reset with status := ⟨false, false, true, false, false, false, 0x23⟩, errInfo := 5 }
    (busRead 0x018 s).1 = 5 ∧ after (busWrite 0x018 7 s) (fun t => t == s) = true ∧
    (s.status.busy = false ∧
      after (step { s with host := [.wr .word 0x010 6] }) (fun t => t.status.busy && (busRead 0x018 t).1 == 0) = true) ∧
    ({ s with turns := [.reset] } : State).whose = .reset ∧
    after (step { s with turns := [.reset] }) (fun t => (busRead 0x018 t).1 == 0) = true := by
  decide +kernel

end Sys2Proof.Tests
end

/-! SUPPORT. What every host turn, completion and step can do, stated once for the statements of 10_state.md. -/

namespace Sys2Proof.Machine

variable {s t : State} {i : Instr} {v w : Word}

/-! ## Key and tweak bytes (R48, R49, R156) -/

@[simp] theorem wordBytes_length (w : Word) : (wordBytes w).length = 4 := rfl

@[simp] theorem tweakBytes_length (t0 t1 : Word) : (tweakBytes t0 t1).length = 8 := rfl

@[simp] theorem keyBytes_length (keys : Vector Word 8) : (keyBytes keys).length = 32 := by
  simp [keyBytes, List.length_flatMap]

theorem keyLen_le (cs : Cipher) : keyLen cs ≤ 32 := by cases cs <;> decide

theorem loadKey_length {cs : Cipher} {krev : Bool} {k : List Byte} (hk : k.length = 32) :
    (loadKey cs krev k).length = keyLen cs := by
  have := keyLen_le cs
  cases krev <;> simp [loadKey, hk, this]

/-! ## The CMD write -/

/-- Word 0 is the only NOP (R101). -/
theorem decode_eq_nop : decode w = .nop ↔ w = 0 := by
  constructor
  · intro h
    by_contra hw
    rw [decode, if_neg hw] at h
    split at h
    · cases h
    · split at h <;> cases h
  · rintro rfl
    rfl

theorem regAt_cmd (depth : Nat) : regAt depth 0x010 = .cmd := rfl

/-- A CMD write while FATAL = 1 (R35). -/
theorem busWrite_cmd_fatal (hf : s.status.fatal = true) (w : Word) : busWrite 0x010 w s = .next s := by
  rw [busWrite_cmd (regAt_cmd _), writeCmd, if_pos hf]

/-- A CMD write while BUSY = 1 (R35). -/
theorem busWrite_cmd_busy (hf : s.status.fatal = false) (hb : s.status.busy = true) (w : Word) :
    busWrite 0x010 w s = .next { s with status := { s.status with cmdOvr := true } } := by
  rw [busWrite_cmd (regAt_cmd _), writeCmd, if_neg (by simp [hf]), if_pos hb]

/-- An idle engine's CMD write of a NOP word (R36, R220). -/
theorem busWrite_cmd_nop (hf : s.status.fatal = false) (hb : s.status.busy = false) (hw : decode w = .nop) :
    busWrite 0x010 w s = exec .nop s := by
  rw [busWrite_cmd (regAt_cmd _), writeCmd, if_neg (by simp [hf]), if_neg (by simp [hb]), if_pos hw]

/-- An idle engine's CMD write of any other word (R36). -/
theorem busWrite_cmd_accept (hf : s.status.fatal = false) (hb : s.status.busy = false) (hw : decode w ≠ .nop) :
    busWrite 0x010 w s = .next (accept w s) := by
  rw [busWrite_cmd (regAt_cmd _), writeCmd, if_neg (by simp [hf]), if_neg (by simp [hb]), if_neg hw]

/-! ## A host turn -/

/-- The offset of IRQ_STAT is the only one that names it (R30). -/
theorem off_of_regAt_irqStat {depth off : Nat} (h : regAt depth off = .irqStat) : off = 0x080 := by
  unfold regAt at h
  split at h
  · rename_i reg hreg
    obtain ⟨l₁, l₂, hl, -⟩ := List.lookup_eq_some_iff.1 hreg
    have hall : ∀ p ∈ controlRegs, p.2 = .irqStat → p.1 = 0x080 := by decide
    exact hall (off, reg) (by rw [hl]; simp) h
  · split at h <;> cases h

/-- What a host turn that starts no command keeps, and the little it may change of the engine's own record: an idle engine's CMD (a
NOP) and digits, the sticky bits CMD_OVR and BUSY_ACC upwards, and IRQ_STAT by a write to it. -/
structure QuietAccess (s t : State) : Prop where
  depth : t.dbufDepth = s.dbufDepth
  act : t.act = s.act
  snap : t.snap = s.snap
  errInfo : t.errInfo = s.errInfo
  cmd : s.status.busy = true → t.cmd = s.cmd
  digits : t.digits = s.digits ∨ s.status.busy = false ∧ ∃ j < s.dbufDepth, ∃ v, t.digits = s.digits.write j v
  busy : t.status.busy = s.status.busy
  fatal : t.status.fatal = s.status.fatal
  done : t.status.done = s.status.done
  err : t.status.err = s.status.err
  errCode : t.status.errCode = s.status.errCode
  cmdOvr : s.status.cmdOvr = true → t.status.cmdOvr = true
  busyAcc : s.status.busyAcc = true → t.status.busyAcc = true
  irqStat : t.irqStat = s.irqStat ∨
    ∃ v rest, s.host = .wr .word 0x080 v :: rest ∧ t.irqStat = s.irqStat &&& ~~~(v.extractLsb' 0 3)

namespace QuietAccess

theorem refl (s : State) : QuietAccess s s where
  depth := rfl
  act := rfl
  snap := rfl
  errInfo := rfl
  cmd _ := rfl
  digits := .inl rfl
  busy := rfl
  fatal := rfl
  done := rfl
  err := rfl
  errCode := rfl
  cmdOvr := id
  busyAcc := id
  irqStat := .inl rfl

/-- A register write (R75, R80): the staging registers are no part of the record, a DIGIT slot is written by an idle engine only. -/
theorem writeReg {reg : Reg} (rest : List HostOp) (hd : ∀ j, reg = .digit j → j < s.dbufDepth)
    (hirq : reg = .irqStat → ∃ rest, s.host = .wr .word 0x080 v :: rest) :
    QuietAccess s (({ s with host := rest } : State).writeReg v reg) := by
  cases reg with
  | irqStat =>
    obtain ⟨rest', h⟩ := hirq rfl
    exact { refl s with irqStat := .inr ⟨v, rest', h, rfl⟩ }
  | digit j =>
    cases hb : s.status.busy with
    | true =>
      have hw : ({ s with host := rest } : State).writeReg v (.digit j) = ({ s with host := rest } : State).setBusyAcc := if_pos hb
      rw [hw]
      exact { refl s with busyAcc := fun _ => rfl }
    | false =>
      have hw : ({ s with host := rest } : State).writeReg v (.digit j) = { s with host := rest, digits := s.digits.write j v } :=
        if_neg (by simp [hb])
      rw [hw]
      exact { refl s with digits := .inr ⟨hb, j, hd j rfl, v, rfl⟩ }
  | _ => exact { refl s with }

end QuietAccess

/-- Everything a host turn can do to the engine: an access that starts no command, or the acceptance of one (R36). -/
theorem hostTurn_quiet_or_accept (h : hostTurn s = .next t) :
    QuietAccess s t ∨
    ∃ w rest, s.status.busy = false ∧ s.status.fatal = false ∧ decode w ≠ .nop ∧ t = accept w { s with host := rest } := by
  rcases hostTurn_cases h with ⟨-, rfl⟩ | ⟨off, v, rest, hh, -, -, hw⟩ | ⟨off, host', u, rfl | rfl, rfl⟩
  · exact .inl (.refl t)
  · rcases busWrite_cases (s := { s with host := rest }) (off := off) (v := v) with ⟨-, he⟩ | ⟨-, he⟩ <;> rw [he] at hw
    · cases hw
      refine .inl (.writeReg rest (fun j hj => lt_of_regAt_digit hj) fun hr => ⟨rest, ?_⟩)
      rw [hh, off_of_regAt_irqStat hr]
    · rcases writeCmd_cases (s := { s with host := rest }) (w := v) with
        ⟨-, he⟩ | ⟨-, -, he⟩ | ⟨-, hb, -, he⟩ | ⟨hf, hb, hn, he⟩ <;> rw [he] at hw <;> cases hw
      · exact .inl { QuietAccess.refl s with }
      · exact .inl { QuietAccess.refl s with cmdOvr := fun _ => rfl }
      · exact .inl { QuietAccess.refl s with cmd := fun hb' => absurd (hb.symm.trans hb') (by decide) }
      · exact .inr ⟨v, rest, hb, hf, hn, rfl⟩
  · exact .inl { QuietAccess.refl u with }
  · exact .inl { QuietAccess.refl s with busyAcc := fun _ => rfl }

/-! ## A completion -/

/-- How a completion ends (R240, R241, R246): STATUS, ERRINFO and IRQ_STAT after it. An IN_DIGIT names the lowest refused slot (R43). -/
inductive Ended (s t : State) : Prop where
  | ok (status : t.status = s.status.onOk) (errInfo : t.errInfo = 0) (irqStat : t.irqStat = s.irqStat ||| doneIrq)
  | error (e : ErrName) (info : Nat) (code : e.code ∈ errorCodes) (other : e ≠ .inDigit → info = 0)
      (digit : e = .inDigit → firstBadDigit s s.snap.n.toNat = some info)
      (status : t.status = s.status.onError e) (errInfo : t.errInfo = BitVec.ofNat 32 info)
      (irqStat : t.irqStat = s.irqStat ||| errIrq)
  | internal (act : t.act = s.act) (status : t.status = s.status.onInternal) (errInfo : t.errInfo = 0)
      (irqStat : t.irqStat = s.irqStat ||| errIrq ||| fatalIrq)

theorem runData_ended {check : Option (ErrName × Nat)} {len : Nat} {cipher : List Nat → List Nat}
    (hc : ∀ e info, check = some (e, info) → e.code ∈ errorCodes ∧ (e ≠ .inDigit → info = 0) ∧
      (e = .inDigit → firstBadDigit s s.snap.n.toNat = some info))
    (h : runData check len cipher s = .next t) : Ended s t := by
  rcases runData_cases check len cipher s with ⟨e, info, hs, he⟩ | ⟨-, -, he⟩ | ⟨-, -, he⟩ <;> rw [he] at h <;> cases h
  · obtain ⟨h1, h2, h3⟩ := hc e info hs
    exact .error e info h1 h2 h3 rfl rfl rfl
  · exact .ok rfl rfl rfl
  · exact .internal rfl rfl rfl rfl

theorem ff3_ended {len : Nat} {cipher : List Nat → List Nat} (h : runData (ff3Check s) len cipher s = .next t) : Ended s t :=
  runData_ended (fun e info hs => by
    obtain ⟨h1, h2, -⟩ := ff3Check_some hs
    exact ⟨h1, not_imp_comm.1 h2, by rintro rfl; exact ff3Check_inDigit hs⟩) h

theorem bps_ended {len : Nat} {cipher : List Nat → List Nat} (h : runData (bpsCheck s) len cipher s = .next t) : Ended s t :=
  runData_ended (fun e info hs => by
    obtain ⟨h1, h2, -⟩ := bpsCheck_some hs
    exact ⟨h1, not_imp_comm.1 h2, by rintro rfl; exact bpsCheck_inDigit hs⟩) h

/-- Every command but NOP ends in one of the three ways. -/
theorem exec_ended (hi : i ≠ .nop) (h : exec i s = .next t) : Ended s t := by
  cases i with
  | nop => exact absurd rfl hi
  | configure =>
    rcases execConfigure_cases s with ⟨cs, -, he⟩ | ⟨e, hc, he⟩ <;> cases he.symm.trans h
    · exact .ok rfl rfl rfl
    · obtain ⟨h1, h2⟩ := cfgCheck_error hc
      exact .error e 0 h1 (fun _ => rfl) (fun he => absurd he h2) rfl rfl rfl
  | ff3Enc => exact ff3_ended h
  | ff3Dec => exact ff3_ended h
  | bpsEnc => exact bps_ended h
  | bpsDec => exact bps_ended h
  | wipe =>
    cases h
    exact .ok rfl rfl rfl
  | illegal w =>
    cases h
    exact .error .badCmd 0 (by decide) (fun _ => rfl) nofun rfl rfl rfl

/-! ## A step -/

/-- Everything a step can do: reset, the completion of the command in flight, an engine turn with nothing to complete (only CMD may
change, and only when a NOP word is in flight, which no acceptance brings about), the acceptance of a command, a quiet access. -/
inductive StepEffect (s : State) : State → Prop where
  | reset (whose : s.whose = .reset) : StepEffect s (resetEngine { s with turns := s.turns.tail })
  | complete {t : State} (whose : s.whose = .engine) (busy : s.status.busy = true) (fatal : s.status.fatal = false)
      (notNop : decode s.snap.word ≠ .nop) (exec : exec (decode s.snap.word) { s with turns := s.turns.tail } = .next t) :
      StepEffect s t
  | idle (whose : s.whose = .engine) (c : Word) (cmd : c = s.cmd ∨ s.status.busy = true ∧ decode s.snap.word = .nop) :
      StepEffect s { s with cmd := c, turns := s.turns.tail }
  | accept (whose : s.whose = .host) (w : Word) (rest : List HostOp) (busy : s.status.busy = false)
      (fatal : s.status.fatal = false) (notNop : decode w ≠ .nop) :
      StepEffect s (accept w { s with host := rest, turns := s.turns.tail })
  | quiet {t : State} (whose : s.whose = .host) (access : QuietAccess s t) : StepEffect s t

theorem step_effect (h : step s = .next t) : StepEffect s t := by
  rw [step_eq] at h
  cases hw : s.whose with
  | reset =>
    rw [hw] at h
    cases h
    exact .reset hw
  | engine =>
    rw [hw] at h
    rcases engineTurn_cases { s with turns := s.turns.tail } with ⟨hb, hf, he⟩ | ⟨-, he⟩
    · have hx := he.symm.trans h
      by_cases hn : decode s.snap.word = .nop
      · simp only [hn] at hx
        cases hx
        exact .idle hw 0 (.inr ⟨hb, hn⟩)
      · exact .complete hw hb hf hn hx
    · cases he.symm.trans h
      exact .idle hw s.cmd (.inl rfl)
  | host =>
    rw [hw] at h
    rcases hostTurn_quiet_or_accept h with hq | ⟨w, rest, hb, hf, hn, rfl⟩
    · exact .quiet hw { hq with }
    · exact .accept hw w rest hb hf hn

end Sys2Proof.Machine

/-! SUPPORT. Each operation keeps a good state good (10_state.md, 60_exceptions.md R246). -/

namespace Sys2Proof.Machine

variable {s t : State} {i : Instr} {e : ErrName} {info : Nat} {w : Word}

/-! ## The invariant through each operation -/

@[simp] theorem newAct_valid (p : Snap) (cs : Cipher) : (newAct p cs).valid = true := rfl

@[simp] theorem deadAct_valid (k : Nat) : (deadAct k).valid = false := rfl

theorem zeroKey_bytes : ∀ b ∈ zeroKey, b = 0 := fun _ hb => List.eq_of_mem_replicate hb

namespace State.Inv

/-- Only its two clauses on `act` see a new configuration. -/
theorem withAct {a : Act} {k : Nat} (hs : s.Inv) (hok : a.valid = true → a.Ok) (hkey : a.valid = false → ∀ b ∈ a.key, b = 0) :
    ({ s with act := a, freeCount := k } : State).Inv :=
  { hs with actOk := hok, keyGone := hkey }

theorem storeMessage {y : List Nat} (hs : s.Inv) (hy : y.length ≤ s.dbufDepth) : (s.storeMessage y).Inv :=
  { hs with digitsWf := storeMessage_wf hs.digitsWf y, digitsIn := storeMessage_in hs.digitsIn hy }

theorem completeOk (hs : s.Inv) : (completeOk s).Inv :=
  { hs with
    notBoth := by simp
    noCode := fun _ => rfl
    code := nofun
    info := fun h => absurd rfl h
    running := nofun
    inFlight := nofun
    snapSizes := nofun }

theorem raiseError (hs : s.Inv) (he : e.code ∈ errorCodes) (hi : info ≠ 0 → e = .inDigit ∧ info < s.dbufDepth) :
    (raiseError e info s).Inv :=
  { hs with
    notBoth := by simp
    noCode := nofun
    code := fun _ => he
    info := fun h => by
      obtain ⟨rfl, hlt⟩ := hi fun h0 => h (by simp [h0])
      exact ⟨rfl, lt_of_le_of_lt (by simpa using Nat.mod_le _ _) hlt⟩
    running := nofun
    inFlight := nofun
    snapSizes := nofun }

theorem accept (hs : s.Inv) (hw : decode w ≠ .nop) : (accept w s).Inv :=
  { hs with
    notBoth := by simp
    noCode := fun _ => rfl
    code := nofun
    info := fun h => absurd rfl h
    running := fun _ => ⟨rfl, rfl⟩
    inFlight := fun _ => ⟨rfl, hw⟩
    snapSizes := fun _ => ⟨rfl, keyBytes_length _⟩ }

/-- WIPE leaves an empty buffer and no key (R225). -/
theorem wiped (hs : s.Inv) :
    ({ s with
      digits := []
      keys := Vector.replicate 8 0
      tweak0 := 0
      tweak1 := 0
      act := { s.act with valid := false, key := zeroKey } } : State).Inv :=
  { hs with
    digitsWf := Memory.wf_nil
    digitsIn := nofun
    actOk := nofun
    keyGone := fun _ => zeroKey_bytes }

theorem resetEngine (hs : s.Inv) : (resetEngine s).Inv where
  depth := hs.depth
  digitsWf := Memory.wf_nil
  digitsIn := nofun
  actOk := nofun
  keyGone := fun _ => zeroKey_bytes
  notBoth := by simp
  noCode := fun _ => rfl
  code := nofun
  info := fun h => absurd rfl h
  running := nofun
  inFlight := nofun
  snapSizes := nofun
  notFatal := rfl

/-- A host access that starts no command keeps a good state good. -/
theorem quiet (hs : s.Inv) (h : QuietAccess s t) : t.Inv where
  depth := h.depth ▸ hs.depth
  digitsWf := by
    rcases h.digits with hd | ⟨-, j, -, v, hd⟩ <;> rw [hd]
    exacts [hs.digitsWf, Memory.wf_write hs.digitsWf]
  digitsIn := by
    rw [h.depth]
    rcases h.digits with hd | ⟨-, j, hj, v, hd⟩ <;> rw [hd]
    exacts [hs.digitsIn, Memory.write_in hs.digitsIn hj]
  actOk := h.act ▸ hs.actOk
  keyGone := h.act ▸ hs.keyGone
  notBoth := by rw [h.done, h.err]; exact hs.notBoth
  noCode := by rw [h.err, h.errCode]; exact hs.noCode
  code := by rw [h.err, h.errCode]; exact hs.code
  info := by rw [h.errInfo, h.errCode, h.depth]; exact hs.info
  running := by rw [h.busy, h.done, h.err]; exact hs.running
  inFlight hb := by
    rw [h.busy] at hb
    rw [h.snap, h.cmd hb]
    exact hs.inFlight hb
  snapSizes := by rw [h.busy, h.snap]; exact hs.snapSizes
  notFatal := h.fatal.trans hs.notFatal

end State.Inv

/-- A configuration that passes CONFIGURE's checks is a valid one (R60, R221, R222). -/
theorem newAct_ok {p : Snap} {cs : Cipher} (hk : p.key.length = 32) (h : cfgCheck p = .ok cs) : (newAct p cs).Ok := by
  obtain ⟨-, hr, hm, ho, hl⟩ := cfgCheck_ok.1 h
  exact ⟨hr, hm, ho, hl, rfl, loadKey_length hk⟩

/-- A completion keeps a good state good; in particular the datapath raises no INTERNAL (R246). -/
theorem State.Inv.exec_inv (hs : s.Inv) (hb : s.status.busy = true) (hi : i ≠ .nop) (h : exec i s = .next t) : t.Inv := by
  have fits : s.act.valid = true → s.snap.n.toNat ≤ s.act.maxlen ∨ s.snap.n.toNat ≤ s.dbufDepth →
      s.snap.n.toNat ≤ s.dbufDepth := fun hv hn => by
    have := (hs.actOk hv).maxlen_le
    have := hs.depth
    omega
  rcases exec_cases hi s with ⟨e, info, -, he, hc, hinfo, hlt⟩ | ⟨e, -, hc, he⟩ | ⟨cs, -, hc, he⟩ | ⟨-, he⟩ |
      ⟨-, hv, -, -, hn, ⟨y, hy, he⟩ | ⟨hno, -⟩⟩
  · cases he.symm.trans h
    refine hs.raiseError hc fun h0 => ?_
    obtain ⟨hl, hn, hv⟩ := hlt (hinfo h0)
    exact ⟨hinfo h0, hl.trans_le (fits hv hn)⟩
  · cases he.symm.trans h
    exact (hs.withAct (by simp) fun _ => zeroKey_bytes).raiseError (cfgCheck_error hc).1 fun h0 => absurd rfl h0
  · cases he.symm.trans h
    exact (hs.withAct (fun _ => newAct_ok (hs.snapSizes hb).2 hc) (by simp)).completeOk
  · cases he.symm.trans h
    exact hs.wiped.completeOk
  · cases he.symm.trans h
    have hr := (hs.actOk hv).radix
    exact (hs.storeMessage ((hy (by omega)).length.trans_le (fits hv hn))).completeOk
  · exact absurd (hs.actOk hv) hno

/-- Settles O35: each kind of step keeps the invariant; a NOP word in flight, which would let the engine change CMD under a running
command, is excluded by it. -/
theorem stepKeepsGoodStates : Obligations.StepKeepsGoodStates := by
  intro s t hs h
  have hs' : ({ s with turns := s.turns.tail } : State).Inv := { hs with }
  cases step_effect h with
  | reset => exact hs'.resetEngine
  | complete _ hb _ hn he => exact hs'.exec_inv hb hn he
  | idle _ c hc =>
    obtain rfl | ⟨hb, hn⟩ := hc
    · exact hs'
    · obtain ⟨hw, hd⟩ := hs.inFlight hb
      exact absurd (hw ▸ hn) hd
  | accept _ w rest _ _ hn => exact State.Inv.accept (s := { s with host := rest, turns := s.turns.tail }) { hs with } hn
  | quiet _ q => exact hs.quiet q

end Sys2Proof.Machine

/-! SUPPORT. The rules of the running command: BUSY, FATAL, the sticky bits, ERRINFO, `act` (10_state.md). -/

namespace Sys2Proof.Machine

variable {s t : State} {i : Instr}

/-- Settles O9: an accepting turn needs BUSY = 0, every other one is a quiet access. -/
theorem runningCommandIsIsolated : Obligations.RunningCommandIsIsolated := by
  intro s t hb h
  rcases hostTurn_quiet_or_accept h with q | ⟨-, -, hidle, -⟩
  · have hd : t.digits = s.digits := q.digits.resolve_right fun ⟨hidle, _⟩ => by simp [hidle] at hb
    exact ⟨q.snap, q.act, hd, q.cmd hb, q.busy.trans hb⟩
  · simp [hidle] at hb

/-! ## The result depends on the snapshot, `act` and the digits -/

/-- Two states a completion cannot tell apart (R62; the free-value counter is the model's own, log 14). -/
structure SameInputs (s s' : State) : Prop where
  snap : s'.snap = s.snap
  act : s'.act = s.act
  digits : s'.digits = s.digits
  depth : s'.dbufDepth = s.dbufDepth
  freeCount : s'.freeCount = s.freeCount

/-- Two states with the same result of a command: DIGIT, `act`, DONE, ERR, ERRCODE and ERRINFO. -/
structure SameResult (t t' : State) : Prop where
  digits : t'.digits = t.digits
  act : t'.act = t.act
  done : t'.status.done = t.status.done
  err : t'.status.err = t.status.err
  errCode : t'.status.errCode = t.status.errCode
  errInfo : t'.errInfo = t.errInfo

namespace SameInputs

variable {s' : State}

theorem digit (h : SameInputs s s') : s'.digit = s.digit := by
  funext j
  rw [State.digit, State.digit, h.digits]

theorem message (h : SameInputs s s') : s'.message = s.message := by
  funext n
  rw [State.message, State.message, h.digit]

theorem ff3Check (h : SameInputs s s') : ff3Check s' = ff3Check s := by
  simp only [Machine.ff3Check, firstBadDigit, h.act, h.snap, h.digit]

theorem bpsCheck (h : SameInputs s s') : bpsCheck s' = bpsCheck s := by
  simp only [Machine.bpsCheck, firstBadDigit, h.act, h.snap, h.digit, h.depth]

theorem raiseError (h : SameInputs s s') (e : ErrName) (info : Nat) : SameResult (raiseError e info s) (raiseError e info s') :=
  ⟨h.digits, h.act, rfl, rfl, rfl, rfl⟩

theorem completeOk (h : SameInputs s s') : SameResult (completeOk s) (completeOk s') :=
  ⟨h.digits, h.act, rfl, rfl, rfl, rfl⟩

theorem storeMessage (h : SameInputs s s') (y : List Nat) : SameInputs (s.storeMessage y) (s'.storeMessage y) :=
  { h with digits := by simp [h.digits] }

theorem internalError (h : SameInputs s s') (n : Nat) : SameResult (internalError n s) (internalError n s') :=
  ⟨by simp [h.digits, h.freeCount], h.act, rfl, rfl, rfl, rfl⟩

/-- A data command's completion: one check, one cipher, one message on both sides. -/
theorem runData_sameResult (h : SameInputs s s') (check : Option (ErrName × Nat)) (len : Nat) (cipher : List Nat → List Nat) :
    ∃ t t', runData check len cipher s = .next t ∧ runData check len cipher s' = .next t' ∧ SameResult t t' := by
  have hg : ∀ x y, datapathOk s' len x y = datapathOk s len x y := fun x y => by simp only [datapathOk, h.act]
  have hx : s'.message s.snap.n.toNat = s.message s.snap.n.toNat := by rw [h.message]
  rcases runData_cases check len cipher s with ⟨e, info, rfl, he⟩ | ⟨rfl, hd, he⟩ | ⟨rfl, hd, he⟩
  · exact ⟨_, _, he, rfl, h.raiseError e info⟩
  · exact ⟨_, _, he, by simp [runData, h.snap, hg, hx, hd], (h.storeMessage _).completeOk⟩
  · exact ⟨_, _, he, by simp [runData, h.snap, hg, hx, hd], h.internalError _⟩

theorem exec_sameResult (h : SameInputs s s') (hi : i ≠ .nop) :
    ∃ t t', exec i s = .next t ∧ exec i s' = .next t' ∧ SameResult t t' := by
  have hp : s'.primitive = s.primitive := by rw [State.primitive, State.primitive, h.act]
  have hf : s'.ff3Tweak = s.ff3Tweak := by rw [State.ff3Tweak, State.ff3Tweak, h.snap]
  have hbt : s'.bpsTweak = s.bpsTweak := by rw [State.bpsTweak, State.bpsTweak, h.snap]
  have hbl : s'.bpsCallLen = s.bpsCallLen := by rw [State.bpsCallLen, State.bpsCallLen, h.snap, h.act]
  cases i with
  | nop => exact absurd rfl hi
  | configure =>
    simp only [exec, execConfigure, h.snap, h.freeCount]
    cases cfgCheck s.snap with
    | ok cs => exact ⟨_, _, rfl, rfl, h.digits, rfl, rfl, rfl, rfl, rfl⟩
    | error e => exact ⟨_, _, rfl, rfl, h.digits, rfl, rfl, rfl, rfl, rfl⟩
  | ff3Enc =>
    simp only [exec, execFf3Enc, h.ff3Check, hp, hf, h.act, h.snap]
    exact h.runData_sameResult _ _ _
  | ff3Dec =>
    simp only [exec, execFf3Dec, h.ff3Check, hp, hf, h.act, h.snap]
    exact h.runData_sameResult _ _ _
  | bpsEnc =>
    simp only [exec, execBpsEnc, h.bpsCheck, hp, hbt, hbl, h.act]
    exact h.runData_sameResult _ _ _
  | bpsDec =>
    simp only [exec, execBpsDec, h.bpsCheck, hp, hbt, hbl, h.act]
    exact h.runData_sameResult _ _ _
  | wipe => exact ⟨_, _, rfl, rfl, rfl, by simp [h.act], rfl, rfl, rfl, rfl⟩
  | illegal w => exact ⟨_, _, rfl, rfl, h.raiseError .badCmd 0⟩

end SameInputs

/-- Settles O10: every part of a completion reads nothing but the inputs named. -/
theorem resultDependsOnlyOnSnapshot : Obligations.ResultDependsOnlyOnSnapshot := by
  intro i s s' t hi hsnap hact hdig hdepth hfree ht
  obtain ⟨u, t', hu, ht', hr⟩ := SameInputs.exec_sameResult ⟨hsnap, hact, hdig, hdepth, hfree⟩ hi
  cases hu.symm.trans ht
  exact ⟨t', ht', hr.digits, hr.act, hr.done, hr.err, hr.errCode, hr.errInfo⟩

/-- No completion in a good state raises INTERNAL: the configuration is one CONFIGURE accepts (R246). -/
theorem State.Inv.exec_notFatal (hs : s.Inv) (hi : i ≠ .nop) : ∃ t, exec i s = .next t ∧ t.status.fatal = false := by
  rcases exec_cases hi s with ⟨_, _, -, he, -⟩ | ⟨_, -, -, he⟩ | ⟨_, -, -, he⟩ | ⟨-, he⟩ |
    ⟨-, hv, -, -, -, ⟨_, -, he⟩ | ⟨hno, -⟩⟩
  exacts [⟨_, he, hs.notFatal⟩, ⟨_, he, hs.notFatal⟩, ⟨_, he, hs.notFatal⟩, ⟨_, he, hs.notFatal⟩, ⟨_, he, hs.notFatal⟩,
    absurd (hs.actOk hv) hno]

/-- Settles O33: a completion ends in one of three ways, and INTERNAL would set FATAL, which the invariant excludes. -/
theorem everyCommandCompletes : Obligations.EveryCommandCompletes := by
  intro i s hi hs
  obtain ⟨t, h, hf⟩ := hs.exec_notFatal hi
  refine ⟨t, h, ?_⟩
  cases exec_ended hi h with
  | ok hst _ hirq => simp [hs.notFatal, hst, hirq, doneIrq]
  | error e info hc _ _ hst _ hirq => simp [hs.notFatal, hst, hirq, hc, errIrq]
  | internal _ hst => simp [hst] at hf

/-! ## Rules of every step -/

/-- A command other than CONFIGURE and WIPE keeps `act` (R61). -/
theorem exec_act (hc : i ≠ .configure) (hw : i ≠ .wipe) (h : exec i s = .next t) : t.act = s.act := by
  by_cases hn : i = .nop
  · subst hn
    cases h
    rfl
  · rcases exec_cases hn s with ⟨_, _, -, he, -⟩ | ⟨_, hi, -⟩ | ⟨_, hi, -⟩ | ⟨hi, -⟩ |
      ⟨-, -, -, -, -, ⟨_, -, he⟩ | ⟨-, he⟩⟩
    · cases he.symm.trans h
      rfl
    · exact absurd hi hc
    · exact absurd hi hc
    · exact absurd hi hw
    · cases he.symm.trans h
      rfl
    · cases he.symm.trans h
      rfl

theorem hostTurn_act (h : hostTurn s = .next t) : t.act = s.act := by
  rcases hostTurn_quiet_or_accept h with q | ⟨w, rest, -, -, -, rfl⟩
  exacts [q.act, rfl]

/-- Settles O36: of the steps, only reset and the completion of a CONFIGURE or a WIPE do not keep `act`. -/
theorem onlyConfigureWipeAndResetWriteAct : Obligations.OnlyConfigureWipeAndResetWriteAct := by
  refine ⟨fun i s t hc hw h => exec_act hc hw h, fun s t h => hostTurn_act h, fun s t h hne => ?_⟩
  cases step_effect h with
  | reset hw => exact .inl hw
  | complete hw _ _ _ he =>
    refine .inr ⟨hw, ?_⟩
    by_contra hno
    rw [not_or] at hno
    exact hne (exec_act (s := { s with turns := s.turns.tail }) hno.1 hno.2 he)
  | idle => exact absurd rfl hne
  | accept => exact absurd rfl hne
  | quiet _ q => exact absurd q.act hne

/-- Settles O37: a completion ends with BUSY no higher, an acceptance raises it, every other step but reset keeps it. -/
theorem busyChangesOnlyByAcceptanceCompletionReset : Obligations.BusyChangesOnlyByAcceptanceCompletionReset := by
  intro s t h
  cases step_effect h with
  | reset hw => exact ⟨fun _ hb => by simp at hb, fun _ _ => .inr hw⟩
  | complete hw hb => exact ⟨fun hb' => by simp [hb] at hb', fun _ _ => .inl hw⟩
  | idle hw => exact ⟨fun hb hb' => by simp [hb] at hb', fun _ _ => .inl hw⟩
  | accept hw w _ hb _ hn => exact ⟨fun _ _ => ⟨hw, rfl, hn⟩, fun hb' => by simp [hb] at hb'⟩
  | quiet _ q => exact ⟨fun hb hb' => by simp [q.busy, hb] at hb', fun hb hb' => by simp [q.busy, hb] at hb'⟩

/-- Settles O38: of the steps, only an INTERNAL completion raises FATAL, and only reset lowers it. -/
theorem fatalStopsTheEngineUntilReset : Obligations.FatalStopsTheEngineUntilReset := by
  refine ⟨fun s hf => ⟨by simp [engineTurn, hf], busWrite_cmd_fatal hf⟩, fun s t h hf hf' => ?_, fun s t h hf hf' => ?_⟩
  · cases step_effect h with
    | reset hw => exact hw
    | complete _ _ hf'' => simp [hf] at hf''
    | idle => simp [hf] at hf'
    | accept _ _ _ _ hf'' => simp [hf] at hf''
    | quiet _ q => simp [q.fatal, hf] at hf'
  · cases step_effect h with
    | reset => simp at hf'
    | complete hw hb _ hn he =>
      cases exec_ended hn he with
      | ok hst => simp [hst, hf] at hf'
      | error e info _ _ _ hst => simp [hst, hf] at hf'
      | internal hact hst _ hirq =>
        refine ⟨hw, ?_⟩
        simp [hst, hb, hact, hirq, ErrName.code, errIrq, fatalIrq, BitVec.or_assoc]
    | idle => simp [hf] at hf'
    | accept => simp [hf] at hf'
    | quiet _ q => simp [q.fatal, hf] at hf'

/-- A completion clears no sticky bit of STATUS or IRQ_STAT (R42, R247). -/
theorem Ended.sticky (h : Ended s t) : t.status.cmdOvr = s.status.cmdOvr ∧ t.status.busyAcc = s.status.busyAcc ∧
    ∀ k, s.irqStat.getLsbD k = true → t.irqStat.getLsbD k = true := by
  cases h with
  | ok hst _ hirq => simp +contextual [hst, hirq]
  | error e info _ _ _ hst _ hirq => simp +contextual [hst, hirq]
  | internal _ hst _ hirq => simp +contextual [hst, hirq]

/-- Settles O39: an acceptance clears CMD_OVR and BUSY_ACC, a write to IRQ_STAT the bits it names, reset all of them, no other step
any. -/
theorem stickyBitsAreClearedOnlyAsStated : Obligations.StickyBitsAreClearedOnlyAsStated := by
  intro s t h
  cases step_effect h with
  | reset hw => exact ⟨fun _ _ => .inl hw, fun _ _ => .inl hw, fun _ _ _ _ => .inl hw⟩
  | complete _ _ _ hn he =>
    obtain ⟨ho, ha, hq⟩ := (exec_ended hn he).sticky
    exact ⟨fun h1 h0 => by simp [ho, h1] at h0, fun h1 h0 => by simp [ha, h1] at h0, fun k _ h1 h0 => by simp [hq k h1] at h0⟩
  | idle => exact ⟨fun h1 h0 => by simp [h1] at h0, fun h1 h0 => by simp [h1] at h0, fun k _ h1 h0 => by simp [h1] at h0⟩
  | accept hw _ _ hb =>
    exact ⟨fun _ _ => .inr ⟨hw, hb, rfl⟩, fun _ _ => .inr ⟨hw, hb, rfl⟩, fun k _ h1 h0 => by simp [h1] at h0⟩
  | quiet hw q =>
    refine ⟨fun h1 h0 => by simp [q.cmdOvr h1] at h0, fun h1 h0 => by simp [q.busyAcc h1] at h0, fun k hk h1 h0 => ?_⟩
    rcases q.irqStat with he | ⟨v, rest, hh, he⟩
    · simp [he, h1] at h0
    · exact .inr ⟨hw, v, rest, hh, by simpa [he, h1, hk] using h0⟩

/-! ## ERRINFO (R43) -/

@[simp] theorem busRead_errInfo (s : State) : busRead 0x018 s = (s.errInfo, s) := rfl

/-- What ERRINFO holds after a completion. -/
theorem Ended.errInfo (h : Ended s t) :
    (t.status.errCode = 0x23 → firstBadDigit s s.snap.n.toNat = some t.errInfo.toNat) ∧
    (t.status.errCode ≠ 0x23 → t.errInfo = 0) := by
  cases h with
  | ok hst hinfo => exact ⟨fun h => by simp [hst] at h, fun _ => hinfo⟩
  | internal _ hst hinfo => exact ⟨fun h => by simp [hst, ErrName.code] at h, fun _ => hinfo⟩
  | error e info _ hother hdigit hst hinfo =>
    simp only [hst, hinfo, Status.onError_errCode, ne_eq, code_eq_inDigit]
    refine ⟨fun he => ?_, fun he => by rw [hother he]; rfl⟩
    have hlt : info < 2 ^ 32 := (firstBadDigit_some.1 (hdigit he)).1.trans s.snap.n.isLt
    rw [BitVec.toNat_ofNat, Nat.mod_eq_of_lt hlt]
    exact hdigit he

/-- Settles O56: a completion leaves in ERRINFO what its check found; reset and acceptance clear it, every other step keeps it. -/
theorem errInfoNamesTheBadDigit : Obligations.ErrInfoNamesTheBadDigit := by
  simp only [Obligations.ErrInfoNamesTheBadDigit, busRead_errInfo]
  refine ⟨fun s v => ⟨trivial, rfl⟩, fun i s t hi h => ?_, fun s t h => ?_⟩
  · obtain ⟨hbad, hzero⟩ := (exec_ended hi h).errInfo
    refine ⟨fun hc => ?_, hzero⟩
    obtain ⟨hlt, hge, hlow⟩ := firstBadDigit_some.1 (hbad hc)
    exact ⟨_, hlt, rfl, hge, hlow⟩
  · cases step_effect h with
    | reset hw => exact ⟨fun _ => rfl, fun _ hb => by simp at hb, fun _ => .inl hw⟩
    | complete hw hb => exact ⟨fun hr => by simp [hw] at hr, fun hb' => by simp [hb] at hb', fun _ => .inr (.inl hw)⟩
    | idle hw => exact ⟨fun hr => by simp [hw] at hr, fun hb hb' => by simp [hb] at hb', fun _ => .inr (.inl hw)⟩
    | accept hw _ _ hb => exact ⟨fun hr => by simp [hw] at hr, fun _ _ => rfl, fun _ => .inr (.inr ⟨hw, hb, rfl⟩)⟩
    | quiet hw q =>
      exact ⟨fun hr => by simp [hw] at hr, fun hb hb' => by simp [q.busy, hb] at hb', fun hne => absurd q.errInfo hne⟩

end Sys2Proof.Machine

/-! SUPPORT. The registers as the bus sees them (10_state.md section 2, 20_memory.md), the CMD write, and what a step runs. -/

namespace Sys2Proof.Machine

variable {s : State} {off : Nat} {v w : Word}

/-! ## Reserved bits -/

/-- The low `n` bits of a written word, read back. -/
theorem zeroExtend_extractLsb'_zero {n : Nat} (hn : n ≤ 32) (v : Word) :
    (v.extractLsb' 0 n).zeroExtend 32 = v &&& BitVec.ofNat 32 (2 ^ n - 1) := by
  apply BitVec.eq_of_toNat_eq
  have h1 : v.toNat % 2 ^ n < 2 ^ 32 := (Nat.mod_le _ _).trans_lt v.isLt
  have h2 : 2 ^ n - 1 < 2 ^ 32 := lt_of_lt_of_le (Nat.sub_one_lt (by positivity)) (Nat.pow_le_pow_right (by decide) hn)
  rw [BitVec.toNat_and, BitVec.toNat_ofNat, Nat.mod_eq_of_lt h2, Nat.and_two_pow_sub_one_eq_mod]
  simpa [BitVec.extractLsb'_toNat] using h1

/-- Bits above a field written from bit 0 make no difference. -/
theorem extractLsb'_zero_and {n : Nat} {m v : Word} (hm : ∀ k < n, m.getLsbD k = true) :
    (v &&& m).extractLsb' 0 n = v.extractLsb' 0 n := by
  apply BitVec.eq_of_getLsbD_eq
  intro k hk
  simp [hk, hm k hk]

/-- A field of `n` bits reads 0 in every bit from `n` upwards. -/
theorem zeroExtend_and_eq_zero {n : Nat} (x : BitVec n) {m : Word} (hm : ∀ k < n, m.getLsbD k = false) :
    x.zeroExtend 32 &&& m = 0 := by
  apply BitVec.eq_of_getLsbD_eq
  intro k _
  by_cases hk : k < n
  · simp [hm k hk]
  · simp [BitVec.getLsbD_of_ge x k (by omega)]

theorem Cfgr.toWord_ofWord (v : Word) : (Cfgr.ofWord v).toWord = v &&& 0x00000307 := by
  apply BitVec.eq_of_getLsbD_eq
  intro k hk
  interval_cases k <;> simp only [Cfgr.toWord, Cfgr.ofWord, BitVec.getLsbD_append, BitVec.getLsbD_and] <;> simp

theorem Cfgr.ofWord_and (v : Word) : Cfgr.ofWord (v &&& 0x00000307) = Cfgr.ofWord v := by
  simp only [Cfgr.ofWord, extractLsb'_zero_and (m := 0x00000307) (n := 3) (by decide)]
  simp

theorem Cfgr.toWord_reserved (c : Cfgr) : c.toWord &&& 0xFFFFFCF8 = 0 := by
  obtain ⟨cipher, legacy, krev⟩ := c
  revert cipher legacy krev
  decide

theorem statusWord_reserved (s : State) : s.statusWord &&& 0xFFFF0080 = 0 := by
  apply BitVec.eq_of_getLsbD_eq
  intro k hk
  interval_cases k <;> simp only [State.statusWord, BitVec.getLsbD_append, BitVec.getLsbD_and] <;> simp

theorem capWord_toNat (h : s.dbufDepth ≤ 4096) : s.capWord.toNat = 0x001F0000 + s.dbufDepth := by
  have hc : (0x001F0000 : Word).toNat = 0x001F0000 := rfl
  rw [State.capWord, BitVec.toNat_add, BitVec.toNat_ofNat, hc]
  omega

/-! ## Registers written and read -/

theorem regAt_key (depth : Nat) (k : Fin 8) : regAt depth (0x060 + 4 * k.val) = .key k := by
  fin_cases k <;> rfl

/-- A read of a DIGIT slot of an idle engine (R50). -/
theorem busRead_digit {j : Nat} (hj : j < s.dbufDepth) (hb : s.status.busy = false) :
    (busRead (0x1000 + 4 * j) s).1 = s.digit j := by
  simp [busRead, regAt_digit hj, State.regValue, hb]

/-- A write of a DIGIT slot of an idle engine (R50). -/
theorem busWrite_digit {j : Nat} (hj : j < s.dbufDepth) (hb : s.status.busy = false) :
    busWrite (0x1000 + 4 * j) v s = .next { s with digits := s.digits.write j v } := by
  rw [busWrite_other (by simp [regAt_digit hj]), regAt_digit hj]
  simp [State.writeReg, hb]

/-- A KEY register is written and reads 0 (R49). -/
theorem key_write_read (s : State) (v : Word) (k : Fin 8) :
    ∃ t, busWrite (0x060 + 4 * k.val) v s = .next t ∧ t = { s with keys := s.keys.set k v } ∧
      (busRead (0x060 + 4 * k.val) t).1 = 0 := by
  refine ⟨_, ?_, rfl, ?_⟩
  · rw [busWrite_other (by simp [regAt_key]), regAt_key]
    rfl
  · rw [busRead, regAt_key]
    rfl

/-- A DIGIT slot of an idle engine is written, alone, and reads back (R50). -/
theorem digit_write_read {j : Nat} (hj : j < s.dbufDepth) (hb : s.status.busy = false) (hwf : s.digits.wf) :
    ∃ t, busWrite (0x1000 + 4 * j) v s = .next t ∧ t = { s with digits := t.digits } ∧
      (busRead (0x1000 + 4 * j) t).1 = v ∧ ∀ i, i ≠ j → t.digit i = s.digit i := by
  refine ⟨_, busWrite_digit hj hb, rfl, ?_, fun i hi => ?_⟩
  · rw [busRead_digit (s := { s with digits := s.digits.write j v }) hj hb, State.digit, Memory.read_write hwf, if_pos rfl]
  · rw [State.digit, Memory.read_write hwf, if_neg hi, State.digit]

/-- Settles O13: each offset names its register, and what a field stores is what a read widens again. -/
theorem writtenRegistersReadBack : Obligations.WrittenRegistersReadBack := fun s v =>
  ⟨⟨_, rfl, rfl, rfl⟩,
    ⟨_, rfl, rfl, rfl⟩,
    ⟨_, rfl, rfl, rfl⟩,
    ⟨_, rfl, rfl, Cfgr.toWord_ofWord v⟩,
    ⟨_, rfl, rfl, rfl⟩,
    ⟨_, rfl, rfl, zeroExtend_extractLsb'_zero (n := 4) (by decide) v⟩,
    ⟨_, rfl, rfl, rfl⟩,
    ⟨_, rfl, rfl, rfl⟩,
    key_write_read s v,
    ⟨_, rfl, rfl, zeroExtend_extractLsb'_zero (n := 3) (by decide) v⟩,
    fun _ hj _ hb hwf => digit_write_read hj hb hwf⟩

theorem busWrite_irqStat (s : State) (v : Word) :
    busWrite 0x080 v s = .next { s with irqStat := s.irqStat &&& ~~~(v.extractLsb' 0 3) } := rfl

/-- Settles O14: bit by bit, the complement of the written word masks IRQ_STAT. -/
theorem interruptStatusWriteOneClears : Obligations.InterruptStatusWriteOneClears := fun s v =>
  ⟨_, busWrite_irqStat s v, rfl, fun i hi => by simp [hi]⟩

/-- Settles O11: the identity registers are constants of the read path, and the write path has no case for them. -/
theorem identityRegisters : Obligations.IdentityRegisters := fun _ _ hd =>
  ⟨rfl, rfl, rfl, rfl, rfl, capWord_toNat hd, rfl⟩

theorem busRead_status (s : State) : busRead 0x014 s = (s.statusWord, s) := rfl

/-- STATUS[15:8] is ERRCODE (R37). -/
theorem statusWord_errCode (s : State) : s.statusWord.extractLsb' 8 8 = s.status.errCode := by
  apply BitVec.eq_of_getLsbD_eq
  intro k hk
  rw [BitVec.getLsbD_extractLsb']
  simp only [State.statusWord, BitVec.getLsbD_append]
  interval_cases k <;> simp

/-- STATUS[31:16] is reserved (R37). -/
theorem statusWord_high (s : State) : s.statusWord.extractLsb' 16 16 = 0 := by
  apply BitVec.eq_of_getLsbD_eq
  intro k hk
  rw [BitVec.getLsbD_extractLsb']
  simp only [State.statusWord, BitVec.getLsbD_append]
  interval_cases k <;> simp

/-- Settles O12: a flag's bit is found in the concatenation by the widths of the fields below it. -/
theorem statusWordBits : Obligations.StatusWordBits := by
  intro s v
  simp only [busRead_status]
  refine ⟨rfl, ?_, ?_, ?_, ?_, ?_, ?_, ?_, ?_, statusWord_errCode s, statusWord_high s⟩
  all_goals
    simp only [State.statusWord, BitVec.getLsbD_append]
    simp

/-- Settles O20: no register's read value is made from key material. -/
theorem keysAreNeverReadable : Obligations.KeysAreNeverReadable := by
  intro s off keys k k'
  simp only [busRead]
  cases regAt s.dbufDepth off <;> rfl

/-! ## Reserved space (R53) -/

/-- An accepted CMD word reads back whole. -/
theorem cmd_write_read (hb : s.status.busy = false) (hf : s.status.fatal = false) (w : Word) :
    ∃ t, busWrite 0x010 w s = .next t ∧ (busRead 0x010 t).1 = w := by
  by_cases hn : decode w = .nop
  · exact ⟨_, busWrite_cmd_nop hf hb hn, (decode_eq_nop.1 hn).symm⟩
  · exact ⟨_, busWrite_cmd_accept hf hb hn, rfl⟩

/-- No row of the register table stands in a reserved range (R30, R53). -/
theorem controlRegs_avoid_reserved : ∀ k ∈ controlRegs.map Prod.fst,
    k ≠ 0x00C ∧ k ≠ 0x01C ∧ k ≠ 0x038 ∧ k ≠ 0x03C ∧ (k < 0x048 ∨ 0x05C < k) ∧ k < 0x088 := by decide

theorem reserved_access (h : regAt s.dbufDepth off = .reserved) (v : Word) :
    busRead off s = (0, s) ∧ busWrite off v s = .next s := by
  constructor
  · rw [busRead, h]
    rfl
  · rw [busWrite_other (by simp [h]), h]
    rfl

/-- CAP's bits above the cipher bits are reserved (R33): with an allowed depth DEPTH does not reach them. -/
theorem capWord_reserved (h : s.dbufDepth ≤ 4096) : s.capWord &&& 0xFFE00000 = 0 := by
  have hc : s.capWord = (BitVec.ofNat 21 (0x001F0000 + s.dbufDepth)).zeroExtend 32 := by
    apply BitVec.eq_of_toNat_eq
    rw [capWord_toNat h, BitVec.toNat_setWidth, BitVec.toNat_ofNat]
    omega
  rw [hc]
  exact zeroExtend_and_eq_zero _ (by decide)

/-- Settles O16: the reserved offsets are those outside the register table and the DIGIT window; the reserved bits are those above or
between a register's fields. -/
theorem reservedSpaceReadsZero : Obligations.ReservedSpaceReadsZero := by
  refine ⟨fun s w hb hf => cmd_write_read hb hf w, fun s off v hd h4 ho => reserved_access (regAt_reserved ?_ ?_) v, fun s v => ?_⟩
  · intro hm
    have := controlRegs_avoid_reserved off hm
    omega
  · omega
  · have hlow3 : (v &&& 0x00000007).extractLsb' 0 3 = v.extractLsb' 0 3 := extractLsb'_zero_and (by decide)
    have hlow4 : (v &&& 0x0000000F).extractLsb' 0 4 = v.extractLsb' 0 4 := extractLsb'_zero_and (by decide)
    refine ⟨capWord_reserved, statusWord_reserved s, Cfgr.toWord_reserved _, zeroExtend_and_eq_zero _ (by decide),
      zeroExtend_and_eq_zero _ (by decide), zeroExtend_and_eq_zero _ (by decide), ?_, ?_, ?_, ?_⟩
    · exact congrArg (fun c => Host.Outcome.next { s with cfgr := c }) (Cfgr.ofWord_and v).symm
    · exact congrArg (fun x => Host.Outcome.next { s with twctl := x }) hlow4.symm
    · exact congrArg (fun x => Host.Outcome.next { s with irqStat := s.irqStat &&& ~~~x }) hlow3.symm
    · exact congrArg (fun x => Host.Outcome.next { s with irqEn := x }) hlow3.symm

/-! ## The command write and the step -/

/-- The engine's turn with a command in flight (R22, R240). -/
theorem engineTurn_running (hb : s.status.busy = true) (hf : s.status.fatal = false) : engineTurn s = exec (decode s.snap.word) s := by
  simp [engineTurn, hb, hf]

/-- Settles O6: the two accepting cases of a CMD write; the snapshot's word is the accepted one. -/
theorem commandWriteIsAccepted : Obligations.CommandWriteIsAccepted := by
  intro s w hb hf
  have hst : s.status.onAccept = ⟨true, false, false, false, false, false, 0⟩ := by simp [Status.onAccept, hf]
  have hacc (hw : w ≠ 0) : busWrite 0x010 w s = .next (accept w s) := busWrite_cmd_accept hf hb (mt decode_eq_nop.1 hw)
  refine ⟨fun hw => busWrite_cmd_nop hf hb (decode_eq_nop.2 hw), fun hw => ?_, fun hw t ht => ?_⟩
  · rw [hacc hw, accept, hst]
    rfl
  · cases (hacc hw).symm.trans ht
    exact engineTurn_running (s := accept w s) rfl hf

/-- Settles O7: the two dropping cases of a CMD write. -/
theorem commandWriteIsDropped : Obligations.CommandWriteIsDropped := fun _ w =>
  ⟨fun hf => busWrite_cmd_fatal hf w, fun hf hb => busWrite_cmd_busy hf hb w⟩

theorem step_of_turns_nil (h : s.turns = []) : step s = runTurn (defaultTurn s) s := by rw [step, h]

theorem step_of_turns_cons {a : Turn} {ts : List Turn} (h : s.turns = a :: ts) : step s = runTurn a { s with turns := ts } := by
  rw [step, h]

/-- The host's write of a NOP word to an idle engine (R220). -/
theorem hostTurn_nop {rest : List HostOp} (hh : s.host = .wr .word 0x010 w :: rest) (hb : s.status.busy = false)
    (hf : s.status.fatal = false) (hn : decode w = .nop) : hostTurn s = exec .nop { s with host := rest } := by
  have hacc : accessFault .word 0x010 = none := rfl
  simp only [hostTurn, hh, hacc]
  exact busWrite_cmd_nop (s := { s with host := rest }) hf hb hn

/-- Settles O4: the turn given, or the default one, is the engine's completion or the host's access. -/
theorem stepRunsTheCommandInFlight : Obligations.StepRunsTheCommandInFlight := by
  intro s
  have idle (h : s.status.busy = false ∨ s.status.fatal = true) (ht : s.turns = []) : step s = hostTurn s := by
    have hd : defaultTurn s = .host := by rcases h with h | h <;> simp [defaultTurn, h]
    rw [step_of_turns_nil ht, hd, runTurn]
  have host (ts) (ht : s.turns = .host :: ts) : step s = hostTurn { s with turns := ts } := step_of_turns_cons ht
  refine ⟨fun hb hf => ⟨fun ht => ?_, fun ts ht => ?_⟩, idle, host, fun w rest hh hb hf hn => ⟨fun ht => ?_, fun ts ht => ?_⟩⟩
  · have hd : defaultTurn s = .engine := by simp [defaultTurn, hb, hf]
    rw [step_of_turns_nil ht, hd, runTurn, engineTurn_running hb hf]
  · rw [step_of_turns_cons ht]
    exact engineTurn_running (s := { s with turns := ts }) hb hf
  · rw [idle (.inl hb) ht, hostTurn_nop hh hb hf hn]
  · rw [host ts ht]
    exact hostTurn_nop (s := { s with turns := ts }) hh hb hf hn

/-- Settles O5: the placed word is either accepted with the engine's turn next, or the host's next write. -/
theorem placedWordRunsNext : Obligations.PlacedWordRunsNext := by
  intro s w idle
  have hw : BitVec.ofNat 32 (w.toNat % 2 ^ 32) = w := by rw [Nat.mod_eq_of_lt w.isLt, BitVec.ofNat_toNat, BitVec.setWidth_eq]
  refine ⟨fun hn => ?_, fun hn => ?_⟩
  · have hp : s.withFetchWord 32 w.toNat = { accept w idle with turns := .engine :: s.turns } := by
      simp only [State.withFetchWord, hw, if_neg hn]
      rfl
    rw [hp, step_of_turns_cons rfl]
    exact engineTurn_running (s := accept w idle) rfl rfl
  · have hp : s.withFetchWord 32 w.toNat = { idle with host := .wr .word 0x010 w :: s.host, turns := .host :: s.turns } := by
      simp only [State.withFetchWord, hw, if_pos hn]
      rfl
    rw [hp, step_of_turns_cons rfl]
    exact hostTurn_nop (s := { idle with host := .wr .word 0x010 w :: s.host }) rfl rfl rfl hn

/-! ## The key (R49, R156) -/

/-- Byte b of a word, byte 0 the most significant (R76). -/
theorem byteAt_wordBytes (w : Word) {b : Nat} (hb : b < 4) : byteAt (wordBytes w) b = w.extractLsb' (24 - 8 * b) 8 := by
  interval_cases b <;> rfl

/-- Word k's bytes stand from byte 4k on. -/
theorem byteAt_flatMap_wordBytes {b : Nat} (hb : b < 4) (l : List Word) (k : Nat) (hk : k < l.length) :
    byteAt (l.flatMap wordBytes) (4 * k + b) = byteAt (wordBytes l[k]) b := by
  induction l generalizing k with
  | nil => simp at hk
  | cons w l ih =>
    cases k with
    | zero => simp [byteAt, List.getElem?_append, hb]
    | succ k =>
      have hk' : k < l.length := by simpa using hk
      have hskip : byteAt (wordBytes w ++ l.flatMap wordBytes) (4 * (k + 1) + b) = byteAt (l.flatMap wordBytes) (4 * k + b) := by
        simp only [byteAt, List.getD_eq_getElem?_getD]
        rw [List.getElem?_append_right (by simp; omega)]
        congr 2
        simp
        omega
      rw [List.flatMap_cons, hskip, ih k hk', List.getElem_cons_succ]

/-- Settles O51: the key is the eight registers' bytes in order, cut to keylen, and read from its far end when KREV = 1. -/
theorem keyIsLoadedFromTheKeyRegisters : Obligations.KeyIsLoadedFromTheKeyRegisters := by
  intro keys cs
  have hl := keyBytes_length keys
  have hcs := keyLen_le cs
  refine ⟨fun k b hb => ?_, loadKey_length hl, loadKey_length hl, fun j hj => ⟨?_, ?_⟩⟩
  · have hk : k.val < keys.toList.length := by simp
    rw [keyBytes, byteAt_flatMap_wordBytes hb _ k.val hk, byteAt_wordBytes _ hb]
    simp
  · simp [loadKey, byteAt, hj]
  · have hrev : keyLen cs - 1 - j < (keyBytes keys).length := by omega
    simp [loadKey, byteAt, hj, hl, hcs, List.getElem?_eq_getElem hrev]

end Sys2Proof.Machine

/-! SUPPORT. Host accesses (20_memory.md): which are served and which fault, what a read changes, and what BUSY changes of them. -/

namespace Sys2Proof.Machine

variable {s : State} {off : Nat} {v : Word} {reg : Reg} {width : Width} {rest : List HostOp}

/-! ## Served and faulted accesses (R71, R72) -/

theorem accessFault_busError (h : off < 0x8000) (hbad : width ≠ .word ∨ off % 4 ≠ 0) :
    accessFault width off = some (.busError width off) := by
  rw [accessFault, if_neg (by omega), if_pos hbad]

theorem accessFault_none (h : off < 0x8000) (h4 : off % 4 = 0) : accessFault .word off = none := by
  rw [accessFault, if_neg (by omega), if_neg (by simp [h4])]

/-- Settles O17: the width and the alignment are judged before the access is made. -/
theorem subWordAccessIsABusError : Obligations.SubWordAccessIsABusError := by
  intro s width off v rest h hbad
  have hf := accessFault_busError h hbad
  exact ⟨fun hh => by simp only [hostTurn, hh, hf], fun hh => by simp only [hostTurn, hh, hf]⟩

/-- The host's turn with a write that is served. -/
theorem hostTurn_wr (hh : s.host = .wr .word off v :: rest) (h : off < 0x8000) (h4 : off % 4 = 0) :
    hostTurn s = busWrite off v { s with host := rest } := by
  simp only [hostTurn, hh, accessFault_none h h4]

/-- The host's turn with a read that is served. -/
theorem hostTurn_rd (hh : s.host = .rd .word off :: rest) (h : off < 0x8000) (h4 : off % 4 = 0) :
    hostTurn s = .next ((busRead off { s with host := rest }).2.observe off (busRead off s).1) := by
  simp only [hostTurn, hh, accessFault_none h h4]

/-- A register write keeps the model's record of the host. -/
theorem writeReg_host_reads (s : State) (v : Word) (reg : Reg) :
    (s.writeReg v reg).host = s.host ∧ (s.writeReg v reg).reads = s.reads := by
  cases reg with
  | digit j => cases hb : s.status.busy <;> simp [State.writeReg, hb]
  | _ => exact ⟨rfl, rfl⟩

/-- A bus write always goes on, and keeps the model's record of the host. -/
theorem busWrite_next (s : State) (off : Nat) (v : Word) :
    ∃ t, busWrite off v s = .next t ∧ t.host = s.host ∧ t.reads = s.reads := by
  rcases busWrite_cases (s := s) (off := off) (v := v) with ⟨-, h⟩ | ⟨-, h⟩
  · exact ⟨_, h, writeReg_host_reads s v _⟩
  · rcases writeCmd_cases (s := s) (w := v) with ⟨-, hw⟩ | ⟨-, -, hw⟩ | ⟨-, -, -, hw⟩ | ⟨-, -, -, hw⟩ <;>
      exact ⟨_, h.trans hw, rfl, rfl⟩

/-- What a read changes is no part of the record of the host either. -/
theorem afterRead_host_reads (s : State) (reg : Reg) :
    (s.afterRead reg).host = s.host ∧ (s.afterRead reg).reads = s.reads := by
  rcases afterRead_cases (s := s) reg with h | ⟨-, -, h⟩ <;> simp [h]

/-- Settles O18: the access passes the check of R72, and neither a bus write nor a bus read can stop. -/
theorem alignedAccessesAreServed : Obligations.AlignedAccessesAreServed := by
  intro s off v rest h h4
  refine ⟨fun hh => ?_, fun hh => ?_⟩
  · obtain ⟨t, ht, hhost, hreads⟩ := busWrite_next { s with host := rest } off v
    exact ⟨t, (hostTurn_wr hh h h4).trans ht, ht, hhost, hreads⟩
  · obtain ⟨hhost, hreads⟩ := afterRead_host_reads { s with host := rest } (regAt s.dbufDepth off)
    exact ⟨_, hostTurn_rd hh h h4, hhost, congrArg _ hreads⟩

/-! ## What a read changes (R74) -/

theorem afterRead_digit_busy (hb : s.status.busy = true) (j : Nat) : s.afterRead (.digit j) = s.setBusyAcc := if_pos hb

theorem afterRead_of_ne_digit (h : ∀ j, reg ≠ .digit j) : s.afterRead reg = s := by
  rcases afterRead_cases (s := s) reg with ha | ⟨-, ⟨j, hj⟩, -⟩
  exacts [ha, absurd hj (h j)]

/-- BUSY_ACC is set by a DIGIT read only, and no DIGIT slot shows it. -/
theorem regValue_afterRead (s : State) (reg : Reg) : (s.afterRead reg).regValue reg = s.regValue reg := by
  rcases afterRead_cases (s := s) reg with h | ⟨-, ⟨j, rfl⟩, h⟩ <;> rw [h]
  rfl

theorem afterRead_dbufDepth (s : State) (reg : Reg) : (s.afterRead reg).dbufDepth = s.dbufDepth := by
  rcases afterRead_cases (s := s) reg with h | ⟨-, -, h⟩ <;> simp [h]

/-- Settles O19: a read either changes nothing or sets BUSY_ACC, which changes neither the map nor the register read. -/
theorem readsHaveNoSideEffects : Obligations.ReadsHaveNoSideEffects := by
  intro s off
  refine ⟨fun hne => ?_, fun j hb hr => ?_, ?_⟩
  · rcases afterRead_cases (s := s) (regAt s.dbufDepth off) with h | ⟨hb, ⟨j, hj⟩, -⟩
    · exact absurd h hne
    · exact ⟨hb, j, lt_of_regAt_digit hj, hj⟩
  · rw [busRead, hr, afterRead_digit_busy hb]
    rfl
  · simp only [busRead, afterRead_dbufDepth, regValue_afterRead]

/-! ## Accesses while a command runs (R80) -/

theorem withBusy_true (hb : s.status.busy = true) : s.withBusy true = s := by rw [State.withBusy, ← hb]

/-- A write to a register other than DIGIT does not look at BUSY and does not change it. -/
theorem writeReg_withBusy (h : ∀ j, reg ≠ .digit j) (b : Bool) :
    (s.withBusy b).writeReg v reg = (s.writeReg v reg).withBusy b := by
  cases reg with
  | digit j => exact absurd rfl (h j)
  | _ => rfl

theorem busWrite_withBusy (hd : ∀ j, regAt s.dbufDepth off ≠ .digit j) (hc : regAt s.dbufDepth off ≠ .cmd) (b : Bool) :
    busWrite off v (s.withBusy b) = .next ((s.writeReg v (regAt s.dbufDepth off)).withBusy b) := by
  rw [← writeReg_withBusy hd]
  exact busWrite_other (s := s.withBusy b) hc

/-- A write to a register other than DIGIT leaves alone what a running command uses (R62). -/
theorem writeReg_snap_act_digits (h : ∀ j, reg ≠ .digit j) :
    (s.writeReg v reg).snap = s.snap ∧ (s.writeReg v reg).act = s.act ∧ (s.writeReg v reg).digits = s.digits := by
  cases reg with
  | digit j => exact absurd rfl (h j)
  | _ => exact ⟨rfl, rfl, rfl⟩

/-- Only DIGIT and STATUS show BUSY. -/
theorem regValue_withBusy (h : ∀ j, reg ≠ .digit j) (hst : reg ≠ .status) (b : Bool) :
    (s.withBusy b).regValue reg = s.regValue reg := by
  cases reg with
  | digit j => exact absurd rfl (h j)
  | status => exact absurd rfl hst
  | _ => rfl

theorem busRead_digit_busy {j : Nat} (hb : s.status.busy = true) (hj : j < s.dbufDepth) :
    busRead (0x1000 + 4 * j) s = (0, s.setBusyAcc) := by
  rw [busRead, regAt_digit hj, afterRead_digit_busy hb, State.regValue, if_pos hb]

theorem busWrite_digit_busy {j : Nat} (hb : s.status.busy = true) (hj : j < s.dbufDepth) :
    busWrite (0x1000 + 4 * j) v s = .next s.setBusyAcc := by
  rw [busWrite_other (by simp [regAt_digit hj]), regAt_digit hj, State.writeReg, if_pos hb]

/-- Settles O8: only the DIGIT cases of the read and write paths branch on BUSY; every other one commutes with setting it. -/
theorem accessWhileBusy : Obligations.AccessWhileBusy := by
  refine ⟨fun s j v hb hj _ => ⟨busRead_digit_busy hb hj, busWrite_digit_busy hb hj⟩, fun s off v hb hd hc => ?_⟩
  refine ⟨⟨_, busWrite_withBusy hd hc false, ?_, writeReg_snap_act_digits hd⟩, afterRead_of_ne_digit hd, afterRead_of_ne_digit hd,
    fun hst => (regValue_withBusy hd hst false).symm⟩
  have hw := busWrite_withBusy (v := v) hd hc true
  rwa [withBusy_true hb] at hw

end Sys2Proof.Machine

/-! SUPPORT. The encoding (30_encoding.md): a command word read back from its command, the illegal words, and the end of a WAIT. -/

namespace Sys2Proof

variable {i : Instr} {w : Word}

/-! ## The fields of a command word (R100) -/

theorem rsvField_toNat (w : Word) : (rsvField w).toNat = w.toNat / 16 := by
  rw [rsvField, BitVec.extractLsb'_toNat, Nat.shiftRight_eq_div_pow]
  omega

theorem opField_toNat (w : Word) : (opField w).toNat = w.toNat % 16 := by
  rw [opField, BitVec.extractLsb'_toNat, Nat.shiftRight_zero]

/-- A word with a reserved bit set is none of the legal ones (R102). -/
theorem six_lt_of_rsvField_ne_zero (h : rsvField w ≠ 0) : 6 < w.toNat := by
  have hr : (rsvField w).toNat ≠ 0 := fun h0 => h (BitVec.eq_of_toNat_eq h0)
  rw [rsvField_toNat] at hr
  omega

/-- Without reserved bits a word is its OP (R101, R102). -/
theorem opField_toNat_of_rsvField_eq_zero (h : rsvField w = 0) : (opField w).toNat = w.toNat := by
  have hr : w.toNat / 16 = 0 := by rw [← rsvField_toNat, h]; rfl
  rw [opField_toNat]
  omega

/-! ## Decoding and encoding (R101, R103, R107) -/

/-- Each branch of the decode function answers a command, and the one whose word was given. -/
theorem decode_wf_and_encode_decode (w : Word) : (decode w).wf = true ∧ encode (decode w) = w := by
  unfold decode
  split_ifs with h0 hr
  · exact ⟨rfl, h0.symm⟩
  · exact ⟨decide_eq_true (six_lt_of_rsvField_ne_zero hr), rfl⟩
  · have hop := opField_toNat_of_rsvField_eq_zero (not_not.1 hr)
    have hne : w.toNat ≠ 0 := fun h => h0 (BitVec.eq_of_toNat_eq h)
    rw [hop]
    split
    case h_7 =>
      have hlt : 6 < w.toNat := by grind
      exact ⟨decide_eq_true hlt, rfl⟩
    all_goals exact ⟨rfl, (BitVec.eq_of_toNat_eq ‹_›).symm⟩

theorem decode_wf (w : Word) : (decode w).wf = true := (decode_wf_and_encode_decode w).1

theorem encode_decode (w : Word) : encode (decode w) = w := (decode_wf_and_encode_decode w).2

/-- A word above 6 is no legal command's, so it can only decode to ILLEGAL of the word it encodes (R107). -/
theorem decode_of_six_lt (h : 6 < w.toNat) : decode w = .illegal w := by
  have he := encode_decode w
  cases hd : decode w with
  | illegal v => exact congrArg Instr.illegal (by rwa [hd] at he)
  | _ =>
    rw [hd] at he
    exact absurd h (he ▸ by decide)

theorem decode_encode (h : i.wf = true) : decode (encode i) = i := by
  cases i with
  | illegal v => exact decode_of_six_lt (of_decide_eq_true h)
  | _ => rfl

/-- Settles O1: the branches of the decode function one by one, and for the illegal words that no legal word lies above 6. -/
theorem decodeAndEncodeAgree : Obligations.DecodeAndEncodeAgree :=
  ⟨fun _ => decode_encode, decode_wf_and_encode_decode⟩

/-- Settles O2: what an ILLEGAL carries is its own encoding, hence the word, and a well-formed ILLEGAL carries a word above 6. -/
theorem illegalWordsAreAllTheOthers : Obligations.IllegalWordsAreAllTheOthers := by
  refine fun w => ⟨decode_of_six_lt, fun hr => decode_of_six_lt (six_lt_of_rsvField_ne_zero hr), fun v hv => ?_⟩
  have hvw : v = w := by rw [← encode_decode w, hv, encode]
  have hwf := decode_wf w
  rw [hv, hvw] at hwf
  exact ⟨hvw, of_decide_eq_true hwf⟩

/-- Settles O3: the legal words are the encodings of their commands, the reserved ones lie above 6. -/
theorem opcodeWordsDecode : Obligations.OpcodeWordsDecode :=
  ⟨decode_encode (i := .nop) rfl, decode_encode (i := .configure) rfl, decode_encode (i := .ff3Enc) rfl,
    decode_encode (i := .ff3Dec) rfl, decode_encode (i := .bpsEnc) rfl, decode_encode (i := .bpsDec) rfl,
    decode_encode (i := .wipe) rfl, decode_of_six_lt (by decide), decode_of_six_lt (by decide), decode_of_six_lt (by decide),
    decode_of_six_lt (by decide), decode_of_six_lt (by decide)⟩

end Sys2Proof

namespace Sys2Proof.Machine

variable {s t : State} {i : Instr} {rest : List HostOp}

/-! ## The end of a WAIT (R110, R275) -/

/-- No command touches the model's schedule: the host's remaining accesses and the turns. -/
theorem exec_host_turns (h : exec i s = .next t) : t.host = s.host ∧ t.turns = s.turns := by
  by_cases hi : i = .nop
  · subst hi
    cases h
    exact ⟨rfl, rfl⟩
  · rcases exec_cases hi s with ⟨_, _, -, he, -⟩ | ⟨_, -, -, he⟩ | ⟨_, -, -, he⟩ | ⟨-, he⟩ |
      ⟨-, -, -, -, -, ⟨_, -, he⟩ | ⟨-, he⟩⟩ <;> cases he.symm.trans h <;> exact ⟨rfl, rfl⟩

/-- In a good state with no turn scheduled, the command in flight completes at the next step (R282; log 6). -/
theorem State.Inv.step_completes (hs : s.Inv) (ht : s.turns = []) (hb : s.status.busy = true) :
    ∃ t, step s = .next t ∧ t.status.busy = false ∧ t.host = s.host ∧ t.turns = [] := by
  obtain ⟨hword, hcmd⟩ := hs.inFlight hb
  obtain ⟨t, he, hidle, -⟩ := everyCommandCompletes (decode s.snap.word) s (hword ▸ hcmd) hs
  obtain ⟨hhost, hturns⟩ := exec_host_turns he
  obtain ⟨hrun, -⟩ := stepRunsTheCommandInFlight s
  exact ⟨t, ((hrun hb hs.notFatal).1 ht).trans he, hidle, hhost, hturns.trans ht⟩

/-- Bit 0 of STATUS, which a WAIT polls, is BUSY (R37). -/
theorem statusWord_and_one (hb : s.status.busy = false) : s.statusWord &&& 1 = 0 := by
  obtain ⟨-, hbit, -⟩ := statusWordBits s 0
  have hbit0 : s.statusWord.getLsbD 0 = false := hbit.trans hb
  calc
    s.statusWord &&& 1 = (BitVec.ofBool (s.statusWord.getLsbD 0)).setWidth 32 := BitVec.and_one_eq_setWidth_ofBool_getLsbD
    _ = 0 := by rw [hbit0]; rfl

/-- A WAIT of an idle engine is over after one read of STATUS (log 20). -/
theorem step_wait_idle (ht : s.turns = []) (hh : s.host = waitOp :: rest) (hb : s.status.busy = false) :
    ∃ t, step s = .next t ∧ t.host = rest ∧ t.status.busy = false := by
  obtain ⟨-, hidle, -⟩ := stepRunsTheCommandInFlight s
  have hturn : hostTurn s = .next (({ s with host := rest } : State).observe 0x014 s.statusWord) := by
    have hacc : accessFault .word 0x014 = none := rfl
    simp only [hostTurn, hh, waitOp, hacc, busRead_status, statusWord_and_one hb, if_true]
  exact ⟨_, (hidle (.inl hb) ht).trans hturn, rfl, hb⟩

theorem core_run_succ {k : Nat} (h : step s = .next t) : core.run (k + 1) s = core.run k t := by
  have hcore : core.step s = .next t := h
  simp only [Host.Core.run, hcore]

/-- Settles O42: a command in flight takes the first step, and the idle engine's STATUS ends the WAIT at the next. -/
theorem waitEndsAfterCompletion : Obligations.WaitEndsAfterCompletion := by
  intro s rest hs ht hh
  cases hb : s.status.busy with
  | false =>
    obtain ⟨t, hstep, hrest, hidle⟩ := step_wait_idle ht hh hb
    exact ⟨1, by decide, t, core_run_succ hstep, hrest, hidle⟩
  | true =>
    obtain ⟨u, hu, hbu, hhu, htu⟩ := hs.step_completes ht hb
    obtain ⟨t, hstep, hrest, hidle⟩ := step_wait_idle htu (hhu.trans hh) hbu
    exact ⟨2, le_rfl, t, (core_run_succ hu).trans (core_run_succ hstep), hrest, hidle⟩

end Sys2Proof.Machine

/-! SUPPORT. The radix arithmetic (41_datapath.md sections 1 to 5): the conversions, the round combination, LIMIT, MINOK, the trailer. -/

namespace Sys2Proof.Machine

variable {r bs m c : Nat} {x : List Nat}

/-! ## Number and digit string (R120 to R122) -/

theorem numRev_eq_sum (r : Nat) (x : List Nat) : numRev r x = ∑ j ∈ Finset.range x.length, x.getD j 0 * r ^ j := by
  induction x with
  | nil => rfl
  | cons d x ih =>
    rw [List.length_cons, Finset.sum_range_succ', numRev_cons, ih, Finset.sum_mul]
    simp [pow_succ, mul_assoc]

theorem digitString_cons {d : Nat} : digitString r (d :: x) ↔ d < r ∧ digitString r x := List.forall_mem_cons

theorem numRev_lt (h : digitString r x) : numRev r x < r ^ x.length := by
  induction x with
  | nil => exact Nat.one_pos
  | cons d x ih =>
    obtain ⟨hd, hx⟩ := digitString_cons.1 h
    calc
      numRev r x * r + d < (numRev r x + 1) * r := by rw [Nat.add_one_mul]; omega
      _ ≤ r ^ x.length * r := Nat.mul_le_mul_right r (ih hx)
      _ = r ^ (d :: x).length := (pow_succ r x.length).symm

theorem strRev_numRev (h : digitString r x) : strRev r x.length (numRev r x) = x := by
  induction x with
  | nil => rfl
  | cons d x ih =>
    obtain ⟨hd, hx⟩ := digitString_cons.1 h
    have hmod : (numRev r x * r + d) % r = d := by rw [Nat.mul_add_mod_self_right, Nat.mod_eq_of_lt hd]
    have hdiv : (numRev r x * r + d) / r = numRev r x := by
      rw [Nat.mul_comm, Nat.mul_add_div (by omega), Nat.div_eq_of_lt hd, Nat.add_zero]
    rw [List.length_cons, numRev_cons, strRev_succ, hmod, hdiv, ih hx]

theorem numRev_strRev (h : c < r ^ m) : numRev r (strRev r m c) = c := by
  induction m generalizing c with
  | zero =>
    rw [strRev_zero, numRev_nil]
    rw [pow_zero] at h
    omega
  | succ m ih =>
    have hdiv : c / r < r ^ m := Nat.div_lt_of_lt_mul (by rwa [← pow_succ'])
    rw [strRev_succ, numRev_cons, ih hdiv, Nat.div_add_mod']

/-- Settles O43: both parts by induction on the string, a digit at a time. -/
theorem numRevIsTheWeightedSum : Obligations.NumRevIsTheWeightedSum :=
  fun r x => ⟨numRev_eq_sum r x, numRev_lt⟩

/-- Settles O44: StrRev takes off the digit that NumRev puts on. -/
theorem numRevAndStrRevAreInverse : Obligations.NumRevAndStrRevAreInverse := by
  intro r m _ _
  exact ⟨fun x hx h => hx ▸ strRev_numRev h, fun c hc => numRev_strRev hc⟩

/-! ## The round combination (R127) -/

/-- Adding what was subtracted restores the digit (R130). -/
theorem addDigit_subDigit {a b : Nat} (ha : a < r) (hb : b < r) : addDigit r (subDigit r a b) b = a := by
  rw [addDigit, subDigit, Nat.mod_add_mod, Nat.sub_add_cancel (by omega), Nat.add_mod_right, Nat.mod_eq_of_lt ha]

/-- The decrypt combination is the modular difference. -/
theorem combineDec_eq_sub_emod {b y d : Nat} (hy : y < d) : (combineDec b y d : Int) = ((b : Int) - y) % d := by
  have hsub : ((b + d - y : Nat) : Int) = (b : Int) - y + d := by omega
  rw [combineDec, Int.natCast_emod, hsub, Int.add_emod_right]

/-- Settles O45: at full width the combinations are the digit-wise addition and subtraction of R130 with radix D. -/
theorem roundCombinationsUndoEachOther : Obligations.RoundCombinationsUndoEachOther := by
  intro a b y d ha hb hy
  have hd : 0 < d := Nat.zero_lt_of_lt ha
  exact ⟨rfl, rfl, by omega, by omega, addDigit_lt hd a y, subDigit_lt hd b y, subDigit_addDigit ha hy, addDigit_subDigit hb hy,
    combineDec_eq_sub_emod hy⟩

/-! ## LIMIT (R128) -/

/-- No larger exponent passes LIMIT's test: the search stops at BS − 32, which no radix of 2 or more can exceed. -/
theorem le_halfLimit {k : Nat} (hr : 2 ≤ r) (h : r ^ k ≤ 2 ^ (bs - 32)) : k ≤ limit r bs / 2 := by
  have hk : k ≤ bs - 32 := (Nat.pow_le_pow_iff_right (by decide)).1 ((Nat.pow_le_pow_left hr k).trans h)
  rw [limit, Nat.mul_div_cancel_left _ (by decide)]
  exact Nat.le_findGreatest hk h

theorem limit_even (r bs : Nat) : limit r bs = 2 * (limit r bs / 2) := by
  rw [limit, Nat.mul_div_cancel_left _ (by decide)]

/-- Settles O46: the search for LIMIT covers every exponent that can pass; the tables are evaluated. -/
theorem limitIsTheLargestExponent : Obligations.LimitIsTheLargestExponent := by
  refine ⟨fun r bs hr _ => ?_, by decide +kernel, by decide +kernel, by decide +kernel⟩
  exact ⟨limit r bs / 2, limit_even r bs, pow_halfLimit_le r bs, fun _ => le_halfLimit hr⟩

/-! ## MINOK (R129) -/

/-- Cutting the exponent at 20 decides the same: 2^20 ≥ 10^6, and no power of 0 or 1 gets there (log 22). -/
theorem million_le_pow_min (r m : Nat) : 10 ^ 6 ≤ r ^ min m 20 ↔ 10 ^ 6 ≤ r ^ m := by
  rcases Nat.le_total m 20 with hm | hm
  · rw [Nat.min_eq_left hm]
  rw [Nat.min_eq_right hm]
  rcases Nat.lt_or_ge r 2 with hr | hr
  · have hsmall : ∀ k, ¬10 ^ 6 ≤ r ^ k := fun k => by
      have : r ^ k ≤ 1 ^ k := Nat.pow_le_pow_left (by omega) k
      rw [one_pow] at this
      omega
    exact iff_of_false (hsmall 20) (hsmall m)
  · have hbig : 10 ^ 6 ≤ r ^ 20 := le_trans (by decide) (Nat.pow_le_pow_left hr 20)
    exact iff_of_true hbig (hbig.trans (Nat.pow_le_pow_right (by omega) hm))

theorem minok_iff {minlen : Nat} : minok r minlen = true ↔ 2 ≤ minlen ∧ 10 ^ 6 ≤ r ^ minlen := by
  rw [minok, Bool.and_eq_true, decide_eq_true_eq, decide_eq_true_eq, million_le_pow_min]

theorem minok_eq_false_iff {minlen : Nat} : minok r minlen = false ↔ minlen < 2 ∨ r ^ minlen < 10 ^ 6 := by
  rw [← Bool.not_eq_true, minok_iff, not_and_or, Nat.not_le, Nat.not_le]

/-- A radix range's smallest minlen is `m` if `m` passes at the low end and `m - 1`, when it is 2 or more, fails at the high end. -/
theorem minok_smallest {lo hi : Nat} (hm : 2 ≤ m) (hlo : 0 < lo) (hpass : 10 ^ 6 ≤ lo ^ m) (hfail : m = 2 ∨ hi ^ (m - 1) < 10 ^ 6)
    (hlr : lo ≤ r) (hrh : r ≤ hi) : minok r m = true ∧ ∀ k < m, minok r k = false := by
  refine ⟨minok_iff.2 ⟨hm, hpass.trans (Nat.pow_le_pow_left hlr m)⟩, fun k hk => minok_eq_false_iff.2 ?_⟩
  refine hfail.imp (fun h2 : m = 2 => h2 ▸ hk) fun hsmall => ?_
  calc
    r ^ k ≤ r ^ (m - 1) := Nat.pow_le_pow_right (by omega) (by omega)
    _ ≤ hi ^ (m - 1) := Nat.pow_le_pow_left hrh _
    _ < 10 ^ 6 := hsmall

/-- Settles O47: MINOK is monotone in the radix, so a row of the table is decided at the two ends of its range. -/
theorem minokIsTheFormula : Obligations.MinokIsTheFormula := by
  refine ⟨fun r minlen => minok_iff, fun p hp => ?_⟩
  obtain ⟨hm, hlo, hpass, hfail⟩ :
      2 ≤ p.2.2 ∧ 0 < p.1 ∧ 10 ^ 6 ≤ p.1 ^ p.2.2 ∧ (p.2.2 = 2 ∨ p.2.1 ^ (p.2.2 - 1) < 10 ^ 6) := by
    revert p
    decide
  exact fun r => minok_smallest hm hlo hpass hfail

/-! ## The trailer (R125) -/

theorem Act.Ok.pow_halfV_le {a : Act} (h : a.Ok) {n : Nat} (hn : n ≤ a.maxlen) : a.r ^ halfV n ≤ 2 ^ (a.bs - 32) :=
  (Nat.pow_le_pow_right (by have := h.radix; omega) (halfV_le_halfU n)).trans (h.pow_halfU_le hn)

/-- The trailer, the block without its four tweak bytes, holds BS − 32 bits. -/
theorem Act.Ok.trailer_eq {a : Act} (h : a.Ok) : 256 ^ (a.bs / 8 - 4) = 2 ^ (a.bs - 32) := by
  rw [h.blockSize]
  cases a.cs <;> decide

/-- Settles O48: r^u is within LIMIT's bound, r^v is no larger, and NumRev of a half is below its power of r. -/
theorem halvesFitTheTrailer : Obligations.HalvesFitTheTrailer := by
  intro a n h hn
  have hu := h.pow_halfU_le hn
  have hv := h.pow_halfV_le hn
  refine ⟨hu, hv, fun x hx hl => ?_⟩
  rw [h.trailer_eq]
  rcases hl with hl | hl
  · exact (numRev_lt hx).trans_le (hl ▸ hu)
  · exact (numRev_lt hx).trans_le (hl ▸ hv)

end Sys2Proof.Machine

/-! SUPPORT. The informative limb arithmetic (41_datapath.md section 6, R134, R135) against exact naturals. -/

namespace Sys2Proof.Machine

variable {a b : BigAcc}

/-! ## Limbs and values -/

theorem BigAcc.value_lt (a : BigAcc) : a.value < 2 ^ 96 := by
  have hl := a.low.isLt
  have hm := a.mid.isLt
  have hh := a.high.isLt
  rw [value]
  omega

theorem BigAcc.value_ofNat {x : Nat} (h : x < 2 ^ 96) : (BigAcc.ofNat x).value = x := by
  simp only [value, ofNat, BitVec.toNat_ofNat]
  omega

/-! ## Add, multiply_add, sub and comparison (R134) -/

/-- The carry chain that add and multiply_add share: three column sums of any size, rippled into 32-bit limbs. -/
def rippleCarry (l m h : Nat) : Option BigAcc :=
  let m' := m + l / 2 ^ 32
  let h' := h + m' / 2 ^ 32
  if h' / 2 ^ 32 = 0 then some ⟨BitVec.ofNat 32 l, BitVec.ofNat 32 m', BitVec.ofNat 32 h'⟩ else none

theorem rippleCarry_value (l m h : Nat) : (rippleCarry l m h).map BigAcc.value =
    if l + m * 2 ^ 32 + h * 2 ^ 64 < 2 ^ 96 then some (l + m * 2 ^ 32 + h * 2 ^ 64) else none := by
  have hcarry : (h + (m + l / 2 ^ 32) / 2 ^ 32) / 2 ^ 32 = 0 ↔ l + m * 2 ^ 32 + h * 2 ^ 64 < 2 ^ 96 := by omega
  simp only [rippleCarry, hcarry]
  split_ifs with hlt
  · simp only [Option.map_some, BigAcc.value, BitVec.toNat_ofNat, Option.some.injEq]
    omega
  · rfl

theorem BigAcc.add_eq_rippleCarry (a b : BigAcc) :
    a.add b = rippleCarry (a.low.toNat + b.low.toNat) (a.mid.toNat + b.mid.toNat) (a.high.toNat + b.high.toNat) := rfl

theorem BigAcc.multiplyAdd_eq_rippleCarry (a : BigAcc) (x y : Nat) :
    a.multiplyAdd x y = rippleCarry (a.low.toNat * x + y) (a.mid.toNat * x) (a.high.toNat * x) := rfl

theorem BigAcc.add_value (a b : BigAcc) :
    (a.add b).map value = if a.value + b.value < 2 ^ 96 then some (a.value + b.value) else none := by
  have hsum : a.value + b.value =
      a.low.toNat + b.low.toNat + (a.mid.toNat + b.mid.toNat) * 2 ^ 32 + (a.high.toNat + b.high.toNat) * 2 ^ 64 := by
    rw [value, value]
    ring
  rw [hsum, add_eq_rippleCarry, rippleCarry_value]

theorem BigAcc.multiplyAdd_value (a : BigAcc) (x y : Nat) :
    (a.multiplyAdd x y).map value = if a.value * x + y < 2 ^ 96 then some (a.value * x + y) else none := by
  have hsum : a.value * x + y = a.low.toNat * x + y + a.mid.toNat * x * 2 ^ 32 + a.high.toNat * x * 2 ^ 64 := by
    rw [value]
    ring
  rw [hsum, multiplyAdd_eq_rippleCarry, rippleCarry_value]

/-- The top column of sub comes out at 2^32 or more exactly if the subtrahend is no larger. -/
theorem BigAcc.sub_value (a b : BigAcc) :
    (a.sub b).map value = if b.value ≤ a.value then some (a.value - b.value) else none := by
  have hal := a.low.isLt
  have ham := a.mid.isLt
  have hah := a.high.isLt
  have hbl := b.low.isLt
  have hbm := b.mid.isLt
  have hbh := b.high.isLt
  have hborrow : (2 ^ 32 + a.high.toNat - b.high.toNat - (1 - (2 ^ 32 + a.mid.toNat - b.mid.toNat -
      (1 - (2 ^ 32 + a.low.toNat - b.low.toNat) / 2 ^ 32)) / 2 ^ 32)) / 2 ^ 32 = 1 ↔ b.value ≤ a.value := by
    rw [value, value]
    omega
  simp only [sub, hborrow]
  split_ifs with hle
  · simp only [value] at hle
    simp only [Option.map_some, value, BitVec.toNat_ofNat, Option.some.injEq]
    omega
  · rfl

theorem BigAcc.lt_iff_value_lt (a b : BigAcc) : a.lt b = true ↔ a.value < b.value := by
  have hal := a.low.isLt
  have ham := a.mid.isLt
  have hbl := b.low.isLt
  have hbm := b.mid.isLt
  simp only [lt, value, Bool.or_eq_true, Bool.and_eq_true, decide_eq_true_eq, beq_iff_eq, BitVec.lt_def, BitVec.toNat_eq]
  omega

/-! ## Leading zeros -/

/-- The bits counted by CLZ are 0. -/
theorem BigAcc.value_lt_of_clz (a : BigAcc) : a.value < 2 ^ (96 - a.clz) := by
  refine Nat.lt_pow_two_of_testBit _ fun i hi => ?_
  rcases Nat.lt_or_ge i 96 with h | h
  · have hzero := List.not_of_lt_findIdx (show 95 - i < a.clz by omega)
    simpa [show 95 - (95 - i) = i by omega] using hzero
  · exact Nat.testBit_lt_two_pow (a.value_lt.trans_le (Nat.pow_le_pow_right (by decide) h))

theorem BigAcc.clz_lt (h : a.value ≠ 0) : a.clz < 96 := by
  by_contra hge
  have hlt := a.value_lt_of_clz
  rw [Nat.sub_eq_zero_of_le (Nat.not_lt.1 hge)] at hlt
  omega

/-- The bit below them is 1. -/
theorem BigAcc.le_value_of_clz (h : a.value ≠ 0) : 2 ^ (95 - a.clz) ≤ a.value := by
  have hbit := List.findIdx_getElem (p := fun i => a.value.testBit (95 - i)) (xs := List.range 96)
    (w := by simpa [clz] using clz_lt h)
  rw [List.getElem_range] at hbit
  exact Nat.ge_two_pow_of_testBit hbit

/-- A divisor shifted left by its leading zeros, and by `k` more, has its top bit at 95 + k. -/
theorem BigAcc.le_value_mul_two_pow (h : a.value ≠ 0) (k : Nat) : 2 ^ (95 + k) ≤ a.value * 2 ^ (a.clz + k) := by
  have hclz := clz_lt h
  calc
    2 ^ (95 + k) = 2 ^ (95 - a.clz) * 2 ^ (a.clz + k) := by
      rw [← pow_add]
      congr 1
      omega
    _ ≤ a.value * 2 ^ (a.clz + k) := Nat.mul_le_mul_right _ (le_value_of_clz h)

/-! ## Shift-and-subtract division -/

/-- Started where the shifted divisor exceeds the dividend, the loop divides. -/
theorem shiftSubtract_eq {d k x : Nat} (q : Nat) (h : x < d * 2 ^ k) : shiftSubtract d k x q = (q + x / d, x % d) := by
  induction k generalizing x q with
  | zero =>
    rw [pow_zero, Nat.mul_one] at h
    rw [shiftSubtract, Nat.div_eq_of_lt h, Nat.mod_eq_of_lt h, Nat.add_zero]
  | succ k ih =>
    rw [shiftSubtract]
    split_ifs with hle
    · have hlt : x - d * 2 ^ k < d * 2 ^ k := by
        rw [pow_succ, ← Nat.mul_assoc] at h
        omega
      have hquot : 2 ^ k ≤ x / d := by
        rw [Nat.le_div_iff_mul_le (Nat.pos_of_lt_mul_right h), Nat.mul_comm]
        exact hle
      rw [ih _ hlt, Nat.sub_mul_div, Nat.sub_mul_mod hle, Nat.add_assoc, Nat.add_sub_cancel' hquot]
    · exact ih q (Nat.not_le.1 hle)

/-- The number of positions divrem visits is enough: the divisor, shifted past all of them, exceeds the dividend. -/
theorem BigAcc.value_lt_shifted (h : b.value ≠ 0) : a.value < b.value * 2 ^ (b.clz + 1 - a.clz) := by
  have hclz := clz_lt h
  calc
    a.value < 2 ^ (96 - a.clz) := a.value_lt_of_clz
    _ ≤ 2 ^ (95 - b.clz + (b.clz + 1 - a.clz)) := Nat.pow_le_pow_right (by decide) (by omega)
    _ = 2 ^ (95 - b.clz) * 2 ^ (b.clz + 1 - a.clz) := pow_add _ _ _
    _ ≤ b.value * 2 ^ (b.clz + 1 - a.clz) := Nat.mul_le_mul_right _ (le_value_of_clz h)

theorem BigAcc.divrem_value (a : BigAcc) (h : b.value ≠ 0) :
    (a.divrem b).1.value = a.value / b.value ∧ (a.divrem b).2.value = a.value % b.value := by
  have ha := a.value_lt
  simp only [divrem, shiftSubtract_eq 0 (value_lt_shifted h), Nat.zero_add]
  exact ⟨value_ofNat ((Nat.div_le_self _ _).trans_lt ha), value_ofNat ((Nat.mod_le _ _).trans_lt ha)⟩

/-- Settles O54: each operation has its value lemma. -/
theorem bigAccArithmeticIsExact : Obligations.BigAccArithmeticIsExact :=
  fun a b => ⟨a.add_value b, a.sub_value b, a.multiplyAdd_value, a.lt_iff_value_lt b, BigAcc.divrem_value a⟩

/-! ## The 128-bit reducer (R126, R135) -/

theorem mul_two_pow_succ_half (d k : Nat) : d * 2 ^ (k + 1) / 2 = d * 2 ^ k := by
  rw [pow_succ, ← Nat.mul_assoc, Nat.mul_div_cancel _ (by decide)]

/-- The reducer's loop, `k` times from the divisor shifted left by k - 1, is the division without its quotient. -/
theorem reduceLoop_eq_shiftSubtract (d k x q : Nat) : reduceLoop k (d * 2 ^ k / 2) x = (shiftSubtract d k x q).2 := by
  induction k generalizing x q with
  | zero => rfl
  | succ k ih =>
    rw [mul_two_pow_succ_half, reduceLoop, shiftSubtract]
    split_ifs with hle
    · exact ih _ _
    · exact ih _ _

theorem reduce128_loop {x : Nat} {d : BigAcc} (hx : x < 2 ^ 128) (hd : d.value ≠ 0) :
    reduceLoop (32 + d.clz + 1) (d.value * 2 ^ d.clz * 2 ^ 32) x = x % d.value := by
  have hstart : d.value * 2 ^ d.clz * 2 ^ 32 = d.value * 2 ^ (32 + d.clz + 1) / 2 := by
    rw [mul_two_pow_succ_half, Nat.add_comm 32, pow_add, Nat.mul_assoc]
  have hlt : x < d.value * 2 ^ (32 + d.clz + 1) := by
    rw [show 32 + d.clz + 1 = d.clz + 33 by omega]
    exact hx.trans_le (BigAcc.le_value_mul_two_pow hd 33)
  rw [hstart, reduceLoop_eq_shiftSubtract _ _ _ 0, shiftSubtract_eq 0 hlt]

/-- Settles O55: the reducer is divrem's loop over the wider number, and its remainder fits the accumulator as the divisor does. -/
theorem shiftSubtractReducerIsExact : Obligations.ShiftSubtractReducerIsExact := by
  intro x d hx hd
  have hfit : x % d.value < 2 ^ 96 := (Nat.mod_lt x (Nat.pos_of_ne_zero hd)).trans d.value_lt
  rw [reduce128, reduce128_loop hx hd]
  simp only [hfit, if_true, Option.map_some, BigAcc.value_ofNat hfit]

end Sys2Proof.Machine

/-! SUPPORT. The tweak splitter (42_tweak_cipher.md, R152 to R154), byte by byte and bit by bit. -/

namespace Sys2Proof.Machine

variable {j k : Nat}

/-! ## The bytes of the halves (R152) -/

theorem byteAt_split7_left (t : List Byte) (hj : j < 3) : byteAt (split7 t).1 j = byteAt t j := by
  match j with
  | 0 | 1 | 2 => rfl

theorem byteAt_split7_right (t : List Byte) (hj : j < 3) : byteAt (split7 t).2 j = byteAt t (4 + j) := by
  match j with
  | 0 | 1 | 2 => rfl

/-- The last byte of T_L is the upper nibble of byte 3. -/
theorem byteAt_split7_left_last (t : List Byte) : byteAt (split7 t).1 3 = byteAt t 3 &&& 0xF0 := rfl

/-- The last byte of T_R is the lower nibble of byte 3, moved up. -/
theorem byteAt_split7_right_last (t : List Byte) : byteAt (split7 t).2 3 = byteAt t 3 <<< 4 := rfl

/-! ## The bits of the last bytes (R154) -/

theorem getLsbD_upperNibble (b : Byte) (i : Nat) : (b &&& 0xF0).getLsbD i = (b.getLsbD i && decide (4 ≤ i)) := by
  rcases Nat.lt_or_ge i 8 with hi | hi
  · have hmask : ∀ i < 8, (0xF0 : Byte).getLsbD i = decide (4 ≤ i) := by decide
    rw [BitVec.getLsbD_and, hmask i hi]
  · rw [BitVec.getLsbD_of_ge _ _ hi, BitVec.getLsbD_of_ge _ _ hi, Bool.false_and]

/-- Bit k of a byte string, bit 0 the most significant bit of its first byte (R154), as O49 writes it. -/
def bitAt (b : List Byte) (k : Nat) : Bool := (byteAt b (k / 8)).getLsbD (7 - k % 8)

theorem bitAt_of_last_byte (b : List Byte) (h24 : 24 ≤ k) (h32 : k < 32) : bitAt b k = (byteAt b 3).getLsbD (31 - k) := by
  rw [bitAt, show k / 8 = 3 by omega, show 7 - k % 8 = 31 - k by omega]

theorem bitAt_split7_left_last (t : List Byte) (h24 : 24 ≤ k) (h32 : k < 32) :
    bitAt (split7 t).1 k = (bitAt t k && decide (k < 28)) := by
  rw [bitAt_of_last_byte _ h24 h32, bitAt_of_last_byte _ h24 h32, byteAt_split7_left_last, getLsbD_upperNibble,
    decide_eq_decide.2 (show 4 ≤ 31 - k ↔ k < 28 by omega)]

theorem bitAt_split7_left (t : List Byte) (hk : k < 28) : bitAt (split7 t).1 k = bitAt t k := by
  rcases Nat.lt_or_ge k 24 with h24 | h24
  · rw [bitAt, byteAt_split7_left t (by omega), bitAt]
  · rw [bitAt_split7_left_last t h24 (by omega), decide_eq_true hk, Bool.and_true]

theorem bitAt_split7_left_unused (t : List Byte) (h28 : 28 ≤ k) (h32 : k < 32) : bitAt (split7 t).1 k = false := by
  rw [bitAt_split7_left_last t (by omega) h32, decide_eq_false (by omega), Bool.and_false]

theorem bitAt_split7_right (t : List Byte) (hk : k < 24) : bitAt (split7 t).2 k = bitAt t (32 + k) := by
  rw [bitAt, byteAt_split7_right t (by omega), bitAt, show (32 + k) / 8 = 4 + k / 8 by omega,
    show (32 + k) % 8 = k % 8 by omega]

theorem bitAt_split7_right_nibble (t : List Byte) (h24 : 24 ≤ k) (h28 : k < 28) : bitAt (split7 t).2 k = bitAt t (4 + k) := by
  rw [bitAt_of_last_byte _ h24 (by omega), bitAt_of_last_byte _ (by omega) (by omega), byteAt_split7_right_last,
    BitVec.getLsbD_shiftLeft, show 31 - (4 + k) = 31 - k - 4 by omega]
  simp [show 31 - k < 8 by omega, show ¬31 - k < 4 by omega]

theorem bitAt_split7_right_unused (t : List Byte) (h28 : 28 ≤ k) (h32 : k < 32) : bitAt (split7 t).2 k = false := by
  rw [bitAt_of_last_byte _ (by omega) h32, byteAt_split7_right_last, BitVec.getLsbD_shiftLeft]
  simp [show 31 - k < 4 by omega]

/-- Settles O49: each range of bits has its lemma. -/
theorem sevenByteTweakSplit : Obligations.SevenByteTweakSplit := fun t _ =>
  ⟨rfl, rfl, fun _ => bitAt_split7_left t, fun _ => bitAt_split7_left_unused t, fun _ => bitAt_split7_right t,
    fun _ => bitAt_split7_right_nibble t, fun _ => bitAt_split7_right_unused t⟩

end Sys2Proof.Machine

/-! SUPPORT. The Feistel cipher and its commands (43_feistel.md): the rounds undo each other, and what FF3_ENC and FF3_DEC complete with. -/

namespace Sys2Proof.Machine

variable {E : List Byte → List Byte} {bs r n i len info : Nat} {w : List Byte × List Byte} {t : List Byte} {ab : List Nat × List Nat}
  {x : List Nat} {s : State} {e : ErrName} {cmd : Instr} {cipher : List Nat → List Nat}

/-! ## One round (R176, R177) -/

theorem combineEnc_lt {d : Nat} (hd : 0 < d) (a y : Nat) : combineEnc a y d < d := Nat.mod_lt _ hd

theorem combineDec_lt {d : Nat} (hd : 0 < d) (b y : Nat) : combineDec b y d < d := Nat.mod_lt _ hd

theorem combineDec_combineEnc {a y d : Nat} (ha : a < d) (hy : y < d) : combineDec (combineEnc a y d) y d = a := subDigit_addDigit ha hy

theorem combineEnc_combineDec {b y d : Nat} (hb : b < d) (hy : y < d) : combineEnc (combineDec b y d) y d = b := addDigit_subDigit hb hy

theorem roundValue_lt {m : Nat} {v : List Byte} (hr : 0 < r) (side : List Nat) : roundValue E bs r m v i side < r ^ m :=
  Nat.mod_lt _ (Nat.pow_pos hr)

/-- A decrypt round takes off the round value that the encrypt round of its index put on: both take it from the same half. -/
theorem decRound_encRound (hr : 0 < r) (h : Halves r n i ab) : decRound E bs r n w (encRound E bs r n w ab i) i = ab := by
  have ha : numRev r ab.1 < r ^ roundM n i := h.fst ▸ numRev_lt h.digits.1
  simp only [decRound, encRound]
  rw [numRev_strRev (combineEnc_lt (Nat.pow_pos hr) _ _), combineDec_combineEnc ha (roundValue_lt hr ab.2), ← h.fst,
    strRev_numRev h.digits.1]

/-- An encrypt round puts back the round value that the decrypt round of its index took off. -/
theorem encRound_decRound (hr : 0 < r) (h : Halves r n (i + 1) ab) : encRound E bs r n w (decRound E bs r n w ab i) i = ab := by
  have hlen : ab.2.length = roundM n i := h.snd.trans (roundM_add_two n i)
  have hb : numRev r ab.2 < r ^ roundM n i := hlen ▸ numRev_lt h.digits.2
  simp only [decRound, encRound]
  rw [numRev_strRev (combineDec_lt (Nat.pow_pos hr) _ _), combineEnc_combineDec hb (roundValue_lt hr ab.1), ← hlen,
    strRev_numRev h.digits.2]

/-! ## The rounds together (R178, R179) -/

/-- Decrypt rounds downwards undo encrypt rounds upwards: the last round put on comes off first. -/
theorem decRounds_encRounds (hr : 0 < r) (k : Nat) (h : Halves r n i ab) :
    (List.range' i k).reverse.foldl (decRound E bs r n w) ((List.range' i k).foldl (encRound E bs r n w) ab) = ab := by
  induction k generalizing i ab with
  | zero => rfl
  | succ k ih =>
    rw [List.range'_succ, List.foldl_cons, List.reverse_cons, List.foldl_append, ih (h.encRound hr)]
    exact decRound_encRound hr h

/-- Encrypt rounds upwards undo decrypt rounds downwards. -/
theorem encRounds_decRounds (hr : 0 < r) (k : Nat) (h : Halves r n (i + k) ab) :
    (List.range' i k).foldl (encRound E bs r n w) ((List.range' i k).reverse.foldl (decRound E bs r n w) ab) = ab := by
  induction k generalizing ab with
  | zero => rfl
  | succ k ih =>
    rw [List.range'_1_concat, List.reverse_append, List.reverse_singleton, List.singleton_append, List.foldl_cons, List.foldl_append,
      ih (h.decRound hr)]
    exact encRound_decRound hr h

/-- Cutting a joined string at u gives its halves back (R123). -/
theorem Halves.cut (h : Halves r n 0 ab) : ((ab.1 ++ ab.2).take (halfU n), (ab.1 ++ ab.2).drop (halfU n)) = ab := by
  have hu : ab.1.length = halfU n := h.fst
  rw [← hu, List.take_left, List.drop_left]

theorem feistelEnc_append (h : Halves r n 0 ab) : feistelEnc E bs r t (ab.1 ++ ab.2) =
    ((List.range' 0 8).foldl (encRound E bs r n (splitTweak t)) ab).1 ++
      ((List.range' 0 8).foldl (encRound E bs r n (splitTweak t)) ab).2 := by
  rw [feistelEnc, h.length, h.cut]
  rfl

theorem feistelDec_append (h : Halves r n 0 ab) : feistelDec E bs r t (ab.1 ++ ab.2) =
    ((List.range' 0 8).reverse.foldl (decRound E bs r n (splitTweak t)) ab).1 ++
      ((List.range' 0 8).reverse.foldl (decRound E bs r n (splitTweak t)) ab).2 := by
  rw [feistelDec, h.length, h.cut]
  rfl

/-- FeistelDec undoes FeistelEnc (R181). -/
theorem feistelDec_feistelEnc (hr : 0 < r) (h : digitString r x) : feistelDec E bs r t (feistelEnc E bs r t x) = x := by
  have h0 := Halves.start h
  calc
    feistelDec E bs r t (feistelEnc E bs r t x) = x.take (halfU x.length) ++ x.drop (halfU x.length) := by
      rw [feistelEnc, feistelDec_append (encRounds_halves hr h0).zero]
      exact congrArg (fun p => p.1 ++ p.2) (decRounds_encRounds hr 8 h0)
    _ = x := List.take_append_drop _ x

/-- FeistelEnc undoes FeistelDec (R181). -/
theorem feistelEnc_feistelDec (hr : 0 < r) (h : digitString r x) : feistelEnc E bs r t (feistelDec E bs r t x) = x := by
  have h8 := (Halves.start h).eight
  calc
    feistelEnc E bs r t (feistelDec E bs r t x) = x.take (halfU x.length) ++ x.drop (halfU x.length) := by
      rw [feistelDec, feistelEnc_append (decRounds_halves hr h8)]
      exact congrArg (fun p => p.1 ++ p.2) (encRounds_decRounds (i := 0) hr 8 h8)
    _ = x := List.take_append_drop _ x

/-- Settles O52: the round values cancel round by round, and the halves keep their lengths and digits. -/
theorem feistelRoundTrip : Obligations.FeistelRoundTrip := by
  intro E bs r t x hr _ hx
  have hr : 0 < r := by omega
  exact ⟨feistelDec_feistelEnc hr hx, feistelEnc_feistelDec hr hx, feistelEnc_length hr hx, feistelEnc_digits hr hx⟩

/-! ## A data command that passes its check (R180) -/

theorem getD_lt_of_digitString {j : Nat} (h : digitString r x) (hj : j < x.length) : x.getD j 0 < r := by
  rw [List.getD_eq_getElem x 0 hj]
  exact h _ (List.getElem_mem hj)

/-- A stored message reads back digit by digit, and every other slot keeps its word (R50, R180). -/
theorem storeMessage_resultStored (hwf : s.digits.wf) (hr : s.act.r ≤ 65536) (h : Message s.act.r s.snap.n.toNat x) :
    resultStored s (completeOk (s.storeMessage x)) x := by
  have hread (j : Nat) : (completeOk (s.storeMessage x)).digit j = _ := storeMessage_digit hwf x j
  refine ⟨fun j hj => ?_, fun j hj => ?_⟩
  · have hlt : x.getD j 0 < s.act.r := getD_lt_of_digitString h.digits (h.length ▸ hj)
    rw [hread, if_pos (h.length ▸ hj), BitVec.toNat_ofNat, Nat.mod_eq_of_lt (by omega)]
    exact ⟨rfl, hlt⟩
  · rw [hread, if_neg (by rw [h.length]; omega)]

/-- From a good state, a data command whose check passes completes with its cipher's result in place of the message. -/
theorem runData_stores_result (hs : s.Inv) (hv : s.act.valid = true) (hlen : len ≤ s.act.maxlen)
    (hm : Message s.act.r s.snap.n.toNat (cipher (s.message s.snap.n.toNat))) :
    ∃ u, runData none len cipher s = .next u ∧ sameButResult s u ∧ completedOk s u ∧
      resultStored s u (cipher (s.message s.snap.n.toNat)) :=
  ⟨_, runData_ok hs hv hlen hm.length, rfl, ⟨rfl, rfl, rfl⟩, storeMessage_resultStored hs.digitsWf (hs.actOk hv).radix.2 hm⟩

/-! ## FF3_ENC and FF3_DEC (R170, R171) -/

theorem exec_ff3Enc (s : State) : exec .ff3Enc s =
    runData (ff3Check s) s.snap.n.toNat (feistelEnc s.primitive s.act.bs s.act.r s.ff3Tweak) s := rfl

theorem exec_ff3Dec (s : State) : exec .ff3Dec s =
    runData (ff3Check s) s.snap.n.toNat (feistelDec s.primitive s.act.bs s.act.r s.ff3Tweak) s := rfl

/-- The tweak of an accepted FF3 command: 7 zero bytes for the null tweak, else the leading TLEN bytes (R150, R151). -/
theorem ff3Tweak_of_accepted (h : ff3TweakAccepted s) :
    s.ff3Tweak = if s.snap.tlen = 0 then List.replicate 7 0 else s.snap.tweak.take s.snap.tlen.toNat := by
  rcases h with h | h | ⟨h, -⟩ <;> rw [State.ff3Tweak, h] <;> rfl

/-- An FF3 command that passes ff3_check completes with its cipher's result, for a cipher that keeps the length and the radix. -/
theorem ff3_stores_result (hs : s.Inv) (hc : ff3Check s = none)
    (hm : ∀ x, 0 < s.act.r → digitString s.act.r x → Message s.act.r x.length (cipher x)) :
    ∃ u, runData (ff3Check s) s.snap.n.toNat cipher s = .next u ∧ sameButResult s u ∧ completedOk s u ∧
      resultStored s u (cipher (s.message s.snap.n.toNat)) := by
  obtain ⟨hv, -, -, -, hmax, hd⟩ := ff3Check_none.1 hc
  have hr : 0 < s.act.r := by have := (hs.actOk hv).radix; omega
  have hy := hm _ hr (message_digits hd)
  rw [message_length] at hy
  rw [hc]
  exact runData_stores_result hs hv hmax hy

/-- Settles O26: the check passes, and FeistelEnc keeps the length and the radix. -/
theorem ff3EncEncryptsInPlace : Obligations.Ff3EncEncryptsInPlace := by
  intro s hs hv hbs ht hmin hmax hd
  rw [exec_ff3Enc, ff3Tweak_of_accepted ht, hbs]
  exact ff3_stores_result hs (ff3Check_none.2 ⟨hv, hbs, ht, hmin, hmax, hd⟩)
    fun x hr hx => ⟨feistelEnc_length hr hx, feistelEnc_digits hr hx⟩

/-- Settles O27: the check passes, and FeistelDec keeps the length and the radix. -/
theorem ff3DecDecryptsInPlace : Obligations.Ff3DecDecryptsInPlace := by
  intro s hs hv hbs ht hmin hmax hd
  rw [exec_ff3Dec, ff3Tweak_of_accepted ht, hbs]
  exact ff3_stores_result hs (ff3Check_none.2 ⟨hv, hbs, ht, hmin, hmax, hd⟩)
    fun x hr hx => ⟨feistelDec_length hr hx, feistelDec_digits hr hx⟩

/-! ## The FF3 checks, in order (R182) -/

theorem ff3Check_notConfigured (hv : s.act.valid = false) : ff3Check s = some (.notConfigured, 0) := if_pos hv

theorem ff3Check_inBlockSize (hv : s.act.valid = true) (hbs : s.act.bs ≠ 128) : ff3Check s = some (.inBlockSize, 0) := by
  rw [ff3Check, if_neg (by simp [hv]), if_pos hbs]

theorem ff3Check_inTweak (hv : s.act.valid = true) (hbs : s.act.bs = 128) (ht : ¬ff3TweakAccepted s) :
    ff3Check s = some (.inTweak, 0) := by
  have ht : ff3TweakOk s.snap.tlen s.act.legacy = false := by rwa [← ff3TweakOk_iff, Bool.not_eq_true] at ht
  rw [ff3Check, if_neg (by simp [hv]), if_neg (not_not.2 hbs), if_pos ht]

/-- With the first three checks passed, the length and then the digits decide. -/
theorem ff3Check_of_tweakAccepted (hv : s.act.valid = true) (hbs : s.act.bs = 128) (ht : ff3TweakAccepted s) :
    ff3Check s = if s.snap.n.toNat < s.act.minlen ∨ s.act.maxlen < s.snap.n.toNat then some (.inLength, 0)
      else (firstBadDigit s s.snap.n.toNat).map fun j => (.inDigit, j) := by
  rw [ff3Check, if_neg (by simp [hv]), if_neg (not_not.2 hbs), if_neg (by simp [ff3TweakOk_iff.2 ht])]

theorem ff3Check_inLength (hv : s.act.valid = true) (hbs : s.act.bs = 128) (ht : ff3TweakAccepted s)
    (hn : s.snap.n.toNat < s.act.minlen ∨ s.act.maxlen < s.snap.n.toNat) : ff3Check s = some (.inLength, 0) := by
  rw [ff3Check_of_tweakAccepted hv hbs ht, if_pos hn]

theorem ff3Check_inDigit_of_first (hv : s.act.valid = true) (hbs : s.act.bs = 128) (ht : ff3TweakAccepted s)
    (hn : s.act.minlen ≤ s.snap.n.toNat ∧ s.snap.n.toNat ≤ s.act.maxlen)
    (hj : info < s.snap.n.toNat ∧ s.act.r ≤ (s.digit info).toNat ∧ ∀ k < info, (s.digit k).toNat < s.act.r) :
    ff3Check s = some (.inDigit, info) := by
  rw [ff3Check_of_tweakAccepted hv hbs ht, if_neg (by omega), firstBadDigit_some.2 hj, Option.map_some]

/-- An FF3 command whose check fails raises what the check found and changes nothing else (R241). -/
theorem ff3_endsInError (hc : cmd = .ff3Enc ∨ cmd = .ff3Dec) (h : ff3Check s = some (e, info)) : endsInError cmd s e.code info := by
  rcases hc with rfl | rfl
  · rw [endsInError, exec_ff3Enc, h]
    rfl
  · rw [endsInError, exec_ff3Dec, h]
    rfl

/-- Settles O30: each clause's conditions decide ff3_check up to its failing branch. -/
theorem ff3ErrorsInOrder : Obligations.Ff3ErrorsInOrder := by
  intro i s hi
  exact ⟨fun hv => ff3_endsInError hi (ff3Check_notConfigured hv), fun hv =>
    ⟨fun hbs => ff3_endsInError hi (ff3Check_inBlockSize hv hbs), fun hbs =>
      ⟨fun ht => ff3_endsInError hi (ff3Check_inTweak hv hbs ht), fun ht =>
        ⟨fun hn => ff3_endsInError hi (ff3Check_inLength hv hbs ht hn), fun hmin hmax j hj hbad hlow =>
          ff3_endsInError hi (ff3Check_inDigit_of_first hv hbs ht ⟨hmin, hmax⟩ ⟨hj, hbad, hlow⟩)⟩⟩⟩⟩

end Sys2Proof.Machine

/-! SUPPORT. BPS block chaining and its commands (44_bps.md): decryption undoes encryption from the last block to the first, what BPS_ENC
and BPS_DEC complete with, and the tweak's perturbation. -/

namespace Sys2Proof.Machine

variable {E : List Byte → List Byte} {bs r M len a i j k rest info : Nat} {t : List Byte} {x y z w : List Nat} {s : State} {e : ErrName}
  {cmd : Instr} {cipher : List Nat → List Nat}

/-! ## One complete block (R205, R209) -/

theorem feistelEnc_message (hr : 0 < r) (h : Message r len x) : Message r len (feistelEnc E bs r t x) :=
  ⟨(feistelEnc_length hr h.digits).trans h.length, feistelEnc_digits hr h.digits⟩

/-- Decrypting the window that a Feistel call was written to gives the call's operand back. -/
theorem feistelDec_slice_splice (hr : 0 < r) (h : Message r M x) (ha : a ≤ y.length) :
    feistelDec E bs r t (slice (splice y a (feistelEnc E bs r t x)) a M) = x := by
  have hread := slice_splice_same (z := feistelEnc E bs r t x) ha
  rw [(feistelEnc_message hr h).length] at hread
  rw [hread, feistelDec_feistelEnc hr h.digits]

/-- Decrypting block i undoes its Feistel call and takes off the previous cipher block, which still stands in front of it. -/
theorem bpsDecBlock_bpsEncBlock (hr : 0 < r) (h : Message r len y) (hi : (i + 1) * M ≤ len) :
    bpsDecBlock E bs r M t (bpsEncBlock E bs r M t y i) i = y := by
  have hmixed := h.mixed hr hi
  rw [Nat.succ_mul] at hi
  have hstart : i * M ≤ y.length := by rw [h.length]; omega
  have hblock : Message r M (slice y (i * M) M) := h.slice hi
  have hback {c : List Nat} (hc : Message r M c) : splice (splice y (i * M) c) (i * M) (slice y (i * M) M) = y := by
    rw [splice_splice hstart (hc.length.trans hblock.length.symm), splice_slice (by rw [h.length]; exact hi)]
  simp only [bpsDecBlock, bpsEncBlock]
  rw [feistelDec_slice_splice hr hmixed hstart]
  split_ifs at hmixed ⊢ with hpos
  · have hbefore : i * M - M + M ≤ i * M := by rw [Nat.sub_add_cancel (Nat.le_mul_of_pos_left M hpos)]
    have hprev : Message r M (slice y (i * M - M) M) := h.slice (by omega)
    rw [slice_splice_before hbefore hstart,
      subDigits_addDigits hblock.digits hprev.digits (by rw [hblock.length, hprev.length])]
    exact hback (feistelEnc_message hr hmixed)
  · exact hback (feistelEnc_message hr hmixed)

/-! ## The complete blocks together -/

theorem bpsEncBlocks_message (hr : 0 < r) (h : Message r len y) (hk : k * M ≤ len) :
    Message r len ((List.range k).foldl (bpsEncBlock E bs r M t) y) :=
  foldl_blocks_message _ (bpsEncBlock_message hr) _ (fun _ hi => (Nat.mul_le_mul_right M (List.mem_range.1 hi)).trans hk) h

/-- Decrypting the blocks from the last to the first undoes encrypting them from the first to the last. -/
theorem bpsDecBlocks_bpsEncBlocks (hr : 0 < r) (h : Message r len y) (hk : k * M ≤ len) :
    (List.range k).reverse.foldl (bpsDecBlock E bs r M t) ((List.range k).foldl (bpsEncBlock E bs r M t) y) = y := by
  induction k with
  | zero => rfl
  | succ k ih =>
    have hk' : k * M ≤ len := (Nat.mul_le_mul_right M k.le_succ).trans hk
    rw [List.range_succ, List.reverse_append, List.reverse_singleton, List.singleton_append, List.foldl_cons, List.foldl_append,
      List.foldl_cons, List.foldl_nil, bpsDecBlock_bpsEncBlock hr (bpsEncBlocks_message hr h hk') hk, ih hk']

/-! ## Lists, entry by entry -/

theorem eq_of_getD_eq {α : Type} {l m : List α} (d : α) (hl : l.length = m.length) (h : ∀ j < m.length, l.getD j d = m.getD j d) :
    l = m := by
  refine List.ext_getElem hl fun j h1 h2 => ?_
  simpa only [List.getD_eq_getElem _ _ h1, List.getD_eq_getElem _ _ h2] using h j h2

theorem getD_set {α : Type} {l : List α} {v d : α} (hk : k < l.length) : (l.set k v).getD j d = if j = k then v else l.getD j d := by
  simp only [List.getD_eq_getElem?_getD, List.getElem?_set]
  rcases eq_or_ne k j with rfl | hne
  · rw [if_pos rfl, if_pos hk, if_pos rfl, Option.getD_some]
  · rw [if_neg hne, if_neg hne.symm]

theorem getD_slice (hj : j < len) : (slice x a len).getD j 0 = x.getD (a + j) 0 := by
  simp only [slice, List.getD_eq_getElem?_getD, List.getElem?_take_of_lt hj, List.getElem?_drop]

theorem getD_splice (ha : a ≤ x.length) :
    (splice x a z).getD j 0 = if a ≤ j ∧ j < a + z.length then z.getD (j - a) 0 else x.getD j 0 := by
  have htake : (x.take a).length = a := List.length_take_of_le ha
  simp only [splice, List.append_assoc, List.getD_eq_getElem?_getD]
  rcases Nat.lt_or_ge j a with h1 | h1
  · rw [List.getElem?_append_left (by omega), List.getElem?_take_of_lt h1, if_neg (by omega)]
  rw [List.getElem?_append_right (by omega), htake]
  rcases Nat.lt_or_ge j (a + z.length) with h2 | h2
  · rw [List.getElem?_append_left (by omega), if_pos ⟨h1, h2⟩]
  · rw [List.getElem?_append_right (by omega), List.getElem?_drop, if_neg (by omega),
      show a + z.length + (j - a - z.length) = j by omega]

/-! ## The tail (R206, R208) -/

/-- The pre-mix's first write, before the shorter pre-mix of the rest. -/
theorem bpsPreMix_succ (h : rest < y.length) : bpsPreMix r M (rest + 1) y = bpsPreMix r M rest
    (y.set (y.length - (rest + 1)) (addDigit r (y.getD (y.length - (rest + 1)) 0) (y.getD (y.length - (rest + 1) - M) 0))) := by
  rw [bpsPreMix, bpsPreMix, List.range'_succ, List.foldl_cons, List.length_set,
    show y.length - (rest + 1) + 1 = y.length - rest by omega]

/-- The un-mix's last write, after the shorter un-mix. -/
theorem bpsUnMix_succ : bpsUnMix r M (rest + 1) y x = (bpsUnMix r M rest y x).set (M - (rest + 1))
    (subDigit r ((bpsUnMix r M rest y x).getD (M - (rest + 1)) 0) (y.getD (y.length - (rest + 1) - M) 0)) := by
  rw [bpsUnMix, List.range'_1_concat, List.foldl_append, Nat.add_comm 1 rest]
  rfl

/-- The pre-mix adds to each of the last `rest` ≤ M digits the digit M places before it, which it does not write. -/
theorem getD_bpsPreMix (hrest : rest ≤ M) (hlen : M + rest ≤ y.length) : (bpsPreMix r M rest y).getD j 0 =
    if y.length - rest ≤ j ∧ j < y.length then addDigit r (y.getD j 0) (y.getD (j - M) 0) else y.getD j 0 := by
  induction rest generalizing y with
  | zero =>
    rw [if_neg (by omega)]
    rfl
  | succ rest ih =>
    have hp : y.length - (rest + 1) < y.length := by omega
    rw [bpsPreMix_succ (by omega), ih (by omega) (by rw [List.length_set]; omega), List.length_set, getD_set hp, getD_set hp]
    rcases eq_or_ne j (y.length - (rest + 1)) with rfl | hj
    · rw [if_neg (by omega), if_pos rfl, if_pos (by omega)]
    · rw [if_neg hj]
      exact if_ctx_congr (by omega) (fun _ => by rw [if_neg (by omega)]) fun _ => rfl

theorem bpsUnMix_length : (bpsUnMix r M rest y x).length = x.length := by
  induction rest with
  | zero => rfl
  | succ rest ih => rw [bpsUnMix_succ, List.length_set, ih]

/-- The un-mix subtracts from each of the last `rest` digits of its M the digit M places before it in the message. -/
theorem getD_bpsUnMix (hx : x.length = M) (hrest : rest ≤ M) : (bpsUnMix r M rest y x).getD j 0 =
    if M - rest ≤ j ∧ j < M then subDigit r (x.getD j 0) (y.getD (y.length - (M - j) - M) 0) else x.getD j 0 := by
  induction rest generalizing j with
  | zero =>
    rw [if_neg (by omega)]
    rfl
  | succ rest ih =>
    have ih {j : Nat} := @ih j (by omega)
    have hp : M - (rest + 1) < (bpsUnMix r M rest y x).length := by rw [bpsUnMix_length]; omega
    rw [bpsUnMix_succ, getD_set hp, ih, ih]
    rcases eq_or_ne j (M - (rest + 1)) with rfl | hj
    · rw [if_pos rfl, if_neg (by omega), if_pos (by omega), show M - (M - (rest + 1)) = rest + 1 by omega]
    · rw [if_neg hj]
      exact if_congr (by omega) rfl rfl

/-- The un-mix takes off what the pre-mix put on, reading in any text that still holds the digits before the last M. -/
theorem bpsUnMix_bpsPreMix (hr : 0 < r) (h : Message r len y) (hrest : rest ≤ M) (hlen : M + rest ≤ len) (hwl : w.length = len)
    (hw : ∀ j < len - M, w.getD j 0 = y.getD j 0) :
    bpsUnMix r M rest w (slice (bpsPreMix r M rest y) (len - M) M) = slice y (len - M) M := by
  have hz : Message r M (slice (bpsPreMix r M rest y) (len - M) M) := (bpsPreMix_message hr h).slice (by omega)
  have hs : Message r M (slice y (len - M) M) := h.slice (by omega)
  have hdigit {j : Nat} (hj : j < len) : y.getD j 0 < r := getD_lt_of_digitString h.digits (by rwa [h.length])
  refine eq_of_getD_eq 0 (by rw [bpsUnMix_length, hz.length, hs.length]) fun j hj => ?_
  rw [hs.length] at hj
  rw [getD_bpsUnMix hz.length hrest, getD_slice hj, getD_slice hj, getD_bpsPreMix hrest (by rwa [h.length]), h.length, hwl]
  rcases Nat.lt_or_ge j (M - rest) with hmixed | hmixed
  · rw [if_neg (by omega), if_neg (by omega)]
  · rw [if_pos (by omega), if_pos (by omega), hw _ (by omega), show len - (M - j) - M = len - M + j - M by omega]
    exact subDigit_addDigit (hdigit (by omega)) (hdigit (by omega))

/-- Before the last M digits the pre-mix changes nothing. -/
theorem splice_bpsPreMix (hr : 0 < r) (h : Message r len y) (hrest : rest ≤ M) (hlen : M + rest ≤ len) :
    splice (bpsPreMix r M rest y) (len - M) (slice y (len - M) M) = y := by
  have hz : Message r len (bpsPreMix r M rest y) := bpsPreMix_message hr h
  have hs : Message r M (slice y (len - M) M) := h.slice (by omega)
  refine eq_of_getD_eq 0 ((hz.splice hs.digits (by rw [hs.length]; omega)).length.trans h.length.symm) fun j hj => ?_
  rw [h.length] at hj
  rw [getD_splice (by rw [hz.length]; omega), hs.length]
  split_ifs with hlast
  · rw [getD_slice (by omega), Nat.add_sub_cancel' hlast.1]
  · rw [getD_bpsPreMix hrest (by rw [h.length]; exact hlen), if_neg (by rw [h.length]; omega)]

/-- A message longer than one block holds a whole block before its tail (R202). -/
theorem block_add_tail_le (hM : 0 < M) (hlen : M < len) : M + len % M ≤ len := by
  have hblock : M * 1 ≤ M * (len / M) := Nat.mul_le_mul_left M ((Nat.one_le_div_iff hM).2 hlen.le)
  have := Nat.div_add_mod len M
  omega

/-- Decrypting the tail undoes its Feistel call, whose window is the last M digits, and then the pre-mix. -/
theorem bpsDecTail_bpsEncTail (hr : 0 < r) (h : Message r len y) (hM : 0 < M) (hlen : M < len) :
    bpsDecTail E bs r M t (bpsEncTail E bs r M t y) = y := by
  have hrest : len % M ≤ M := (Nat.mod_lt _ hM).le
  have hroom : M + len % M ≤ len := block_add_tail_le hM hlen
  have hz : Message r len (bpsPreMix r M (len % M) y) := bpsPreMix_message hr h
  have hlast : Message r M (slice (bpsPreMix r M (len % M) y) (len - M) M) := hz.slice (by omega)
  have hstart : len - M ≤ (bpsPreMix r M (len % M) y).length := by rw [hz.length]; omega
  have hw := (bpsEncTail_message (E := E) (bs := bs) (t := t) hr h hlen.le).length
  simp only [bpsEncTail, h.length] at hw ⊢
  simp only [bpsDecTail, hw]
  rw [feistelDec_slice_splice hr hlast hstart, bpsUnMix_bpsPreMix hr h hrest hroom hw, splice_splice hstart,
    splice_bpsPreMix hr h hrest hroom]
  · rw [(feistelEnc_message hr hlast).length, (h.slice (by omega)).length]
  · intro j hj
    rw [getD_splice hstart, if_neg (by omega), getD_bpsPreMix hrest (by rw [h.length]; exact hroom), if_neg (by rw [h.length]; omega)]

/-! ## The whole cipher (R202, R212) -/

theorem bpsEncrypt_of_le (h : x.length ≤ M) : bpsEncrypt E bs r M t x = feistelEnc E bs r t x := if_pos h

theorem bpsDecrypt_of_le (h : x.length ≤ M) : bpsDecrypt E bs r M t x = feistelDec E bs r t x := if_pos h

theorem bpsEncrypt_of_lt (h : M < x.length) : bpsEncrypt E bs r M t x =
    if 0 < x.length % M then bpsEncTail E bs r M t ((List.range (x.length / M)).foldl (bpsEncBlock E bs r M t) x)
    else (List.range (x.length / M)).foldl (bpsEncBlock E bs r M t) x := if_neg (by omega)

theorem bpsDecrypt_of_lt (h : M < x.length) : bpsDecrypt E bs r M t x =
    (List.range (x.length / M)).reverse.foldl (bpsDecBlock E bs r M t)
      (if 0 < x.length % M then bpsDecTail E bs r M t x else x) := if_neg (by omega)

theorem bpsDecrypt_bpsEncrypt (hr : 0 < r) (hM : 0 < M) (h : digitString r x) :
    bpsDecrypt E bs r M t (bpsEncrypt E bs r M t x) = x := by
  have hlen := (bpsEncrypt_message (E := E) (bs := bs) (M := M) (t := t) hr h).length
  rcases Nat.lt_or_ge M x.length with hlong | hshort
  · have hblocks : x.length / M * M ≤ x.length := Nat.div_mul_le_self _ _
    have hy := bpsEncBlocks_message (E := E) (bs := bs) (t := t) hr ⟨rfl, h⟩ hblocks
    have htail : (if 0 < x.length % M then bpsDecTail E bs r M t (bpsEncrypt E bs r M t x) else bpsEncrypt E bs r M t x) =
        (List.range (x.length / M)).foldl (bpsEncBlock E bs r M t) x := by
      rw [bpsEncrypt_of_lt hlong]
      split_ifs
      · exact bpsDecTail_bpsEncTail hr hy hM hlong
      · rfl
    rw [bpsDecrypt_of_lt (by rwa [hlen]), hlen, htail]
    exact bpsDecBlocks_bpsEncBlocks hr ⟨rfl, h⟩ hblocks
  · rw [bpsDecrypt_of_le (by rwa [hlen]), bpsEncrypt_of_le hshort, feistelDec_feistelEnc hr h]

/-- Settles O53: the tail comes off first, then the blocks from the last to the first, so each digit subtracted is the one added. -/
theorem bpsRoundTrip : Obligations.BpsRoundTrip := by
  intro E bs r M t x hr hM _ hx
  have hr : 0 < r := by omega
  have henc := bpsEncrypt_message (E := E) (bs := bs) (M := M) (t := t) hr hx
  exact ⟨bpsDecrypt_bpsEncrypt hr (by omega) hx, henc.length, henc.digits, fun h => ⟨bpsEncrypt_of_le h, bpsDecrypt_of_le h⟩⟩

/-! ## BPS_ENC and BPS_DEC (R200, R201) -/

theorem exec_bpsEnc (s : State) : exec .bpsEnc s =
    runData (bpsCheck s) s.bpsCallLen (bpsEncrypt s.primitive s.act.bs s.act.r s.act.maxlen s.bpsTweak) s := rfl

theorem exec_bpsDec (s : State) : exec .bpsDec s =
    runData (bpsCheck s) s.bpsCallLen (bpsDecrypt s.primitive s.act.bs s.act.r s.act.maxlen s.bpsTweak) s := rfl

/-- The tweak of an accepted BPS command: 8 zero bytes for the null tweak, else TWEAK0 and TWEAK1 whole (R150, R151). -/
theorem bpsTweak_of_accepted (h : bpsTweakAccepted s) :
    s.bpsTweak = if s.snap.tlen = 0 then List.replicate 8 0 else s.snap.tweak.take 8 := by
  rcases h with h | h <;> rw [State.bpsTweak, h] <;> rfl

/-- A BPS command that passes bps_check completes with its cipher's result, for a cipher that keeps the length and the radix. -/
theorem bps_stores_result (hs : s.Inv) (hc : bpsCheck s = none)
    (hm : ∀ x, 0 < s.act.r → digitString s.act.r x → Message s.act.r x.length (cipher x)) :
    ∃ u, runData (bpsCheck s) s.bpsCallLen cipher s = .next u ∧ sameButResult s u ∧ completedOk s u ∧
      resultStored s u (cipher (s.message s.snap.n.toNat)) := by
  obtain ⟨hv, -, -, -, hd⟩ := bpsCheck_none.1 hc
  have hr : 0 < s.act.r := by have := (hs.actOk hv).radix; omega
  have hy := hm _ hr (message_digits hd)
  rw [message_length] at hy
  rw [hc]
  exact runData_stores_result hs hv (min_le_right _ _) hy

/-- Settles O28: the check passes, and BpsEnc keeps the length and the radix. -/
theorem bpsEncEncryptsInPlace : Obligations.BpsEncEncryptsInPlace := by
  intro s hs hv ht hmin hmax hd
  rw [exec_bpsEnc, bpsTweak_of_accepted ht]
  exact bps_stores_result hs (bpsCheck_none.2 ⟨hv, ht, hmin, hmax, hd⟩) fun _ => bpsEncrypt_message

/-- Settles O29: the check passes, and BpsDec keeps the length and the radix. -/
theorem bpsDecDecryptsInPlace : Obligations.BpsDecDecryptsInPlace := by
  intro s hs hv ht hmin hmax hd
  rw [exec_bpsDec, bpsTweak_of_accepted ht]
  exact bps_stores_result hs (bpsCheck_none.2 ⟨hv, ht, hmin, hmax, hd⟩) fun _ => bpsDecrypt_message

/-! ## The BPS checks, in order (R211) -/

theorem bpsCheck_notConfigured (hv : s.act.valid = false) : bpsCheck s = some (.notConfigured, 0) := if_pos hv

theorem bpsCheck_inTweak (hv : s.act.valid = true) (ht : ¬bpsTweakAccepted s) : bpsCheck s = some (.inTweak, 0) := by
  have ht : bpsTweakOk s.snap.tlen = false := by rwa [← bpsTweakOk_iff, Bool.not_eq_true] at ht
  rw [bpsCheck, if_neg (by simp [hv]), if_pos ht]

/-- With a configuration and an accepted tweak, the length and then the digits decide. -/
theorem bpsCheck_of_tweakAccepted (hv : s.act.valid = true) (ht : bpsTweakAccepted s) :
    bpsCheck s = if s.snap.n.toNat < s.act.minlen ∨ s.dbufDepth < s.snap.n.toNat then some (.inLength, 0)
      else (firstBadDigit s s.snap.n.toNat).map fun j => (.inDigit, j) := by
  rw [bpsCheck, if_neg (by simp [hv]), if_neg (by simp [bpsTweakOk_iff.2 ht])]

theorem bpsCheck_inLength (hv : s.act.valid = true) (ht : bpsTweakAccepted s)
    (hn : s.snap.n.toNat < s.act.minlen ∨ s.dbufDepth < s.snap.n.toNat) : bpsCheck s = some (.inLength, 0) := by
  rw [bpsCheck_of_tweakAccepted hv ht, if_pos hn]

theorem bpsCheck_inDigit_of_first (hv : s.act.valid = true) (ht : bpsTweakAccepted s)
    (hn : s.act.minlen ≤ s.snap.n.toNat ∧ s.snap.n.toNat ≤ s.dbufDepth)
    (hj : info < s.snap.n.toNat ∧ s.act.r ≤ (s.digit info).toNat ∧ ∀ k < info, (s.digit k).toNat < s.act.r) :
    bpsCheck s = some (.inDigit, info) := by
  rw [bpsCheck_of_tweakAccepted hv ht, if_neg (by omega), firstBadDigit_some.2 hj, Option.map_some]

/-- A BPS command whose check fails raises what the check found and changes nothing else (R241). -/
theorem bps_endsInError (hc : cmd = .bpsEnc ∨ cmd = .bpsDec) (h : bpsCheck s = some (e, info)) : endsInError cmd s e.code info := by
  rcases hc with rfl | rfl
  · rw [endsInError, exec_bpsEnc, h]
    rfl
  · rw [endsInError, exec_bpsDec, h]
    rfl

/-- Settles O31: each clause's conditions decide bps_check up to its failing branch. -/
theorem bpsErrorsInOrder : Obligations.BpsErrorsInOrder := by
  intro i s hi
  exact ⟨fun hv => bps_endsInError hi (bpsCheck_notConfigured hv), fun hv =>
    ⟨fun ht => bps_endsInError hi (bpsCheck_inTweak hv ht), fun ht =>
      ⟨fun hn => bps_endsInError hi (bpsCheck_inLength hv ht hn), fun hmin hmax j hj hbad hlow =>
        bps_endsInError hi (bpsCheck_inDigit_of_first hv ht ⟨hmin, hmax⟩ ⟨hj, hbad, hlow⟩)⟩⟩⟩

/-! ## The perturbation (R203, R213) -/

@[simp] theorem perturb_length (b : List Byte) : (perturb b i).length = b.length := by simp only [perturb, List.length_set]

theorem perturb_add_256 (b : List Byte) (i : Nat) : perturb b (i + 256) = perturb b i := by
  simp only [perturb, Nat.add_mod_right]

/-- Every byte of a perturbed tweak: the counter, as a byte, is xored into bytes 1 and 5. -/
theorem byteAt_perturb (b : List Byte) (i : Nat) (hb : b.length = 8) :
    byteAt (perturb b i) j = if j = 1 ∨ j = 5 then byteAt b j ^^^ BitVec.ofNat 8 i else byteAt b j := by
  have hi : BitVec.ofNat 8 (i % 256) = BitVec.ofNat 8 i := BitVec.eq_of_toNat_eq (by simp)
  have h1 : 1 < b.length := by omega
  have h5 : 5 < (b.set 1 (byteAt b 1 ^^^ BitVec.ofNat 8 i)).length := by rw [List.length_set]; omega
  simp only [perturb, byteAt, hi] at h5 ⊢
  rw [getD_set h5, getD_set h1, getD_set h1]
  rcases eq_or_ne j 5 with rfl | hj5
  · rfl
  rcases eq_or_ne j 1 with rfl | hj1
  · rfl
  · rw [if_neg hj5, if_neg hj1, if_neg (by omega)]

theorem perturb_zero (b : List Byte) (hb : b.length = 8) : perturb b 0 = b := by
  refine eq_of_getD_eq 0 (perturb_length b) fun j _ => ?_
  rw [← byteAt, byteAt_perturb b 0 hb, BitVec.ofNat_eq_ofNat, BitVec.xor_zero, ite_self]
  rfl

/-- An 8-byte tweak is split in its middle (R153). -/
theorem splitTweak_of_length_eight (b : List Byte) (hb : b.length = 8) : splitTweak b = (b.take 4, b.drop 4) := by
  have hdrop : (b.drop 4).length ≤ 4 := by rw [List.length_drop]; omega
  rw [splitTweak, if_neg (by omega), split8, List.take_of_length_le hdrop]

/-- Settles O50: each byte of the perturbed tweak is read off. -/
theorem perturbationIsOneByteCounter : Obligations.PerturbationIsOneByteCounter := by
  intro b i hb
  have hlen : (perturb b i).length = 8 := (perturb_length b).trans hb
  have hbyte {j : Nat} := byteAt_perturb (j := j) b i hb
  exact ⟨hlen, splitTweak_of_length_eight _ hlen, perturb_zero b hb, perturb_add_256 b i, hbyte.trans (if_pos (.inl rfl)),
    hbyte.trans (if_pos (.inr rfl)), fun j _ h1 h5 => hbyte.trans (if_neg (by omega))⟩

end Sys2Proof.Machine

/-! SUPPORT. The control commands (45_control.md): NOP, what the CONFIGURE checks decide and what its completion commits or invalidates,
WIPE, and the illegal words. -/

namespace Sys2Proof.Machine

variable {s : State} {p : Snap} {cs : Cipher} {e : ErrName}

/-! ## NOP (R220) -/

/-- Settles O21: the word 0 decodes to NOP, so its write to CMD is the NOP of an idle engine and is dropped by a busy one. -/
theorem nopOnlySetsCmd : Obligations.NopOnlySetsCmd := fun _ =>
  ⟨rfl, fun hf hb => busWrite_cmd_nop hf hb (decode_eq_nop.2 rfl), fun hf hb => busWrite_cmd_busy hf hb 0⟩

/-! ## The CONFIGURE checks, in order (R222) -/

theorem cfgCheck_noCipher (h : p.cfgr.cipher = 0) : cfgCheck p = .error .cfgNoCipher := if_pos h

theorem cfgCheck_badCipher (h : p.cfgr.cipher = 6 ∨ p.cfgr.cipher = 7) : cfgCheck p = .error .cfgBadCipher := by
  have hne : p.cfgr.cipher ≠ 0 := by rcases h with h | h <;> rw [h] <;> decide
  rw [cfgCheck, if_neg hne, cipherOf_none.2 (.inr h)]

/-- With a selection named, the four bounds decide in order. -/
theorem cfgCheck_of_cipherOf (h : cipherOf p.cfgr.cipher = some cs) : cfgCheck p =
    if p.radix.toNat < 2 ∨ 65536 < p.radix.toNat then .error .cfgRadix
    else if minok p.radix.toNat p.minlen.toNat = false then .error .cfgMinlen
    else if p.maxlen.toNat < p.minlen.toNat then .error .cfgMinmax
    else if limit p.radix.toNat (blockBits cs) < p.maxlen.toNat then .error .cfgMaxlen
    else .ok cs := by
  have hne : p.cfgr.cipher ≠ 0 := fun h0 => by rw [cipherOf_none.2 (.inl h0)] at h; cases h
  rw [cfgCheck, if_neg hne, h]

theorem cfgCheck_radix (h : cipherOf p.cfgr.cipher = some cs) (hr : p.radix.toNat < 2 ∨ 65536 < p.radix.toNat) :
    cfgCheck p = .error .cfgRadix := by
  rw [cfgCheck_of_cipherOf h, if_pos hr]

theorem cfgCheck_minlen (h : cipherOf p.cfgr.cipher = some cs) (hr : 2 ≤ p.radix.toNat ∧ p.radix.toNat ≤ 65536)
    (hm : ¬(2 ≤ p.minlen.toNat ∧ 10 ^ 6 ≤ p.radix.toNat ^ p.minlen.toNat)) : cfgCheck p = .error .cfgMinlen := by
  have hm : minok p.radix.toNat p.minlen.toNat = false := by rwa [← minok_iff, Bool.not_eq_true] at hm
  rw [cfgCheck_of_cipherOf h, if_neg (by omega), if_pos hm]

/-- With the first four checks passed, MAXLEN decides against MINLEN and then against LIMIT. -/
theorem cfgCheck_of_minok (h : cipherOf p.cfgr.cipher = some cs) (hr : 2 ≤ p.radix.toNat ∧ p.radix.toNat ≤ 65536)
    (hm : 2 ≤ p.minlen.toNat ∧ 10 ^ 6 ≤ p.radix.toNat ^ p.minlen.toNat) : cfgCheck p =
    if p.maxlen.toNat < p.minlen.toNat then .error .cfgMinmax
    else if limit p.radix.toNat (blockBits cs) < p.maxlen.toNat then .error .cfgMaxlen
    else .ok cs := by
  rw [cfgCheck_of_cipherOf h, if_neg (by omega), if_neg (by simp [minok_iff.2 hm])]

theorem cfgCheck_minmax (h : cipherOf p.cfgr.cipher = some cs) (hr : 2 ≤ p.radix.toNat ∧ p.radix.toNat ≤ 65536)
    (hm : 2 ≤ p.minlen.toNat ∧ 10 ^ 6 ≤ p.radix.toNat ^ p.minlen.toNat) (hmm : p.maxlen.toNat < p.minlen.toNat) :
    cfgCheck p = .error .cfgMinmax := by
  rw [cfgCheck_of_minok h hr hm, if_pos hmm]

theorem cfgCheck_maxlen (h : cipherOf p.cfgr.cipher = some cs) (hr : 2 ≤ p.radix.toNat ∧ p.radix.toNat ≤ 65536)
    (hm : 2 ≤ p.minlen.toNat ∧ 10 ^ 6 ≤ p.radix.toNat ^ p.minlen.toNat) (hmm : p.minlen.toNat ≤ p.maxlen.toNat)
    (hl : limit p.radix.toNat (blockBits cs) < p.maxlen.toNat) : cfgCheck p = .error .cfgMaxlen := by
  rw [cfgCheck_of_minok h hr hm, if_neg (Nat.not_lt.2 hmm), if_pos hl]

/-! ## CONFIGURE's completion (R221, R224) -/

theorem exec_configure_ok (h : cfgCheck s.snap = .ok cs) :
    exec .configure s = .next (completeOk { s with act := newAct s.snap cs }) := by
  rw [exec, execConfigure, h]

theorem exec_configure_error (h : cfgCheck s.snap = .error e) :
    exec .configure s = .next (raiseError e 0 { s with act := deadAct s.freeCount, freeCount := s.freeCount + 4 }) := by
  rw [exec, execConfigure, h]

/-- A CONFIGURE whose check fails raises what the check found and leaves no configuration and no key (R224). -/
theorem configure_fails (h : cfgCheck s.snap = .error e) :
    ∃ t, exec .configure s = .next t ∧ t.act.valid = false ∧ (∀ b ∈ t.act.key, b = 0) ∧
      t = { s with
            act := t.act
            freeCount := t.freeCount
            status := { s.status with busy := false, done := false, err := true, errCode := e.code }
            errInfo := 0
            irqStat := s.irqStat ||| 0b010 } :=
  ⟨_, exec_configure_error h, deadAct_valid _, zeroKey_bytes, rfl⟩

/-- Settles O22: the conditions are those under which cfg_check passes, and a passing CONFIGURE commits its snapshot. -/
theorem configureCommits : Obligations.ConfigureCommits := by
  intro s cs hcs hr hr' hm hpow hmm hl
  exact exec_configure_ok (cfgCheck_ok.2 ⟨hcs, ⟨hr, hr'⟩, minok_iff.2 ⟨hm, hpow⟩, hmm, hl⟩)

/-- Settles O23: each clause's conditions decide cfg_check up to its failing branch. -/
theorem configureFailsByFirstCheck : Obligations.ConfigureFailsByFirstCheck := by
  intro s
  exact ⟨fun h => configure_fails (cfgCheck_noCipher h), fun h => configure_fails (cfgCheck_badCipher h), fun cs hcs =>
    ⟨fun hr => configure_fails (cfgCheck_radix hcs hr), fun hr hr' =>
      ⟨fun hm => configure_fails (cfgCheck_minlen hcs ⟨hr, hr'⟩ hm), fun hm hpow =>
        ⟨fun hmm => configure_fails (cfgCheck_minmax hcs ⟨hr, hr'⟩ ⟨hm, hpow⟩ hmm), fun hmm hl =>
          configure_fails (cfgCheck_maxlen hcs ⟨hr, hr'⟩ ⟨hm, hpow⟩ hmm hl)⟩⟩⟩⟩

/-! ## WIPE and the illegal words (R225, R226) -/

/-- Settles O24: the completion's state, field by field; an empty digit buffer and a replicated key read 0 everywhere. -/
theorem wipeZeroizes : Obligations.WipeZeroizes := fun _ =>
  ⟨_, rfl, ⟨rfl, rfl, rfl⟩, fun _ => rfl, fun k => Vector.getElem_replicate k.isLt, rfl, rfl, rfl, zeroKey_bytes, rfl⟩

/-- Every ILLEGAL raises BAD_CMD, whatever its word. -/
theorem illegal_endsInError (w : Word) (s : State) : endsInError (.illegal w) s 0x01 0 := rfl

/-- Settles O25: both kinds of word decode to ILLEGAL, a word with a reserved bit set because it lies above 6. -/
theorem illegalCommandRaisesBadCmd : Obligations.IllegalCommandRaisesBadCmd := by
  intro w s
  have habove (h : 6 < w.toNat) : endsInError (decode w) s 0x01 0 := by
    rw [decode_of_six_lt h]
    exact illegal_endsInError w s
  exact ⟨illegal_endsInError w s, habove, fun h => habove (six_lt_of_rsvField_ne_zero h)⟩

end Sys2Proof.Machine

/-! SUPPORT. The exceptions (60_exceptions.md): the interrupt line as the bus shows it, and what an error completion leaves unchanged. -/

namespace Sys2Proof.Machine

variable {s t : State} {i : Instr}

/-! ## The interrupt line (R248) -/

@[simp] theorem busRead_irqStat (s : State) : busRead 0x080 s = (s.irqStat.zeroExtend 32, s) := rfl

@[simp] theorem busRead_irqEn (s : State) : busRead 0x084 s = (s.irqEn.zeroExtend 32, s) := rfl

/-- The engine's line compares the stored bits (R248). -/
theorem irq_iff : s.irq = true ↔ s.irqStat &&& s.irqEn ≠ 0 := bne_iff_ne

/-- Two 3-bit registers, read as words and combined, have no bit above the third. -/
theorem zeroExtend_and_low3 (x y : BitVec 3) :
    (x.zeroExtend 32 &&& y.zeroExtend 32) &&& (0x7 : Word) = (x &&& y).zeroExtend 32 := by
  apply BitVec.eq_of_getLsbD_eq
  intro k _
  by_cases hk : k < 3
  · interval_cases k <;> simp
  · simp [BitVec.getLsbD_of_ge x k (by omega)]

/-- Widening loses no bit. -/
theorem zeroExtend_eq_zero_iff {m n : Nat} (hmn : m ≤ n) (x : BitVec m) : x.zeroExtend n = 0 ↔ x = 0 := by
  simp [← BitVec.toNat_inj, BitVec.toNat_setWidth_of_le hmn]

/-- Settles O15: the combined words are the combined bits widened, and widening keeps a non-zero value non-zero. -/
theorem interruptLine : Obligations.InterruptLine := by
  intro s
  rw [busRead_irqStat, busRead_irqEn, zeroExtend_and_low3, Ne, zeroExtend_eq_zero_iff (by decide)]
  exact irq_iff

/-! ## Errors are precise (R245) -/

/-- What an error completion of `i` may change (R245): STATUS, ERRINFO and IRQ_STAT; CONFIGURE also `act` and the free-value counter. -/
structure PreciseError (i : Instr) (s t : State) : Prop where
  frame : t = { s with
    status := t.status, errInfo := t.errInfo, irqStat := t.irqStat, act := t.act, freeCount := t.freeCount }
  act : i ≠ .configure → t.act = s.act
  freeCount : i ≠ .configure → t.freeCount = s.freeCount

/-- From a good state a completion succeeds, or its error is precise: INTERNAL needs a configuration that CONFIGURE does not accept. -/
theorem State.Inv.exec_ok_or_precise (hs : s.Inv) (hi : i ≠ .nop) (h : exec i s = .next t) :
    t.status.err = false ∨ PreciseError i s t := by
  rcases exec_cases hi s with ⟨e, info, -, he, -⟩ | ⟨e, hc, -, he⟩ | ⟨cs, -, -, he⟩ | ⟨-, he⟩ |
    ⟨-, hv, -, -, -, ⟨y, -, he⟩ | ⟨hno, -⟩⟩
  · cases he.symm.trans h
    exact .inr ⟨rfl, fun _ => rfl, fun _ => rfl⟩
  · cases he.symm.trans h
    exact .inr ⟨rfl, absurd hc, absurd hc⟩
  · cases he.symm.trans h
    exact .inl rfl
  · cases he.symm.trans h
    exact .inl rfl
  · cases he.symm.trans h
    exact .inl rfl
  · exact absurd (hs.actOk hv) hno

/-- Settles O32: a completion with ERR = 1 is no success, so its error is precise. -/
theorem errorsArePrecise : Obligations.ErrorsArePrecise := by
  intro i s t hi hs h herr
  rcases hs.exec_ok_or_precise hi h with hok | hp
  · simp [hok] at herr
  · exact ⟨hp.frame, fun hc => ⟨hp.act hc, hp.freeCount hc⟩⟩

end Sys2Proof.Machine

/-! SUPPORT. Reset and hazards (70_reset_and_hazards.md): the state a reset leaves, as the bus reads it, and the end of a command in
flight. -/

namespace Sys2Proof.Machine

variable {s : State} {off depth : Nat} {reg : Reg}

/-! ## The state after reset (R270) -/

/-- Settles O34: the depth is an allowed one; the engine is idle and holds nothing, so the other clauses find nothing to constrain. -/
theorem resetStateIsGood : Obligations.ResetStateIsGood :=
  { depth := by decide
    digitsWf := Memory.wf_nil
    digitsIn := nofun
    actOk := nofun
    keyGone := fun _ => zeroKey_bytes
    notBoth := nofun
    noCode := fun _ => rfl
    code := nofun
    info := fun h => absurd rfl h
    running := nofun
    inFlight := nofun
    snapSizes := nofun
    notFatal := rfl : State.reset.Inv }

/-! ## What the bus reads after a reset (R270, R271) -/

/-- Every row of the register table stands at its register's offset (R30). -/
theorem controlRegs_offset : ∀ p ∈ controlRegs, p.2.offset = some p.1 := by decide

/-- A register named at an aligned offset is the one the map has there (R30, R50). -/
theorem offset_regAt (h4 : off % 4 = 0) (h : regAt depth off ≠ .reserved) : (regAt depth off).offset = some off := by
  cases hc : controlRegs.lookup off with
  | some reg =>
    obtain ⟨l₁, l₂, hl, -⟩ := List.lookup_eq_some_iff.1 hc
    simp only [regAt, hc]
    exact controlRegs_offset (off, reg) (by simp [hl])
  | none =>
    simp only [regAt, hc] at h ⊢
    split_ifs at h ⊢ with hd
    · simp only [Reg.offset, Option.some.injEq]
      omega
    · exact absurd rfl h

/-- At an aligned offset that is not its own, a register of the map is not named. -/
theorem regAt_ne_of_offset {k : Nat} (h4 : off % 4 = 0) (hreg : reg.offset = some k) (hk : off ≠ k) : regAt depth off ≠ reg := by
  rintro rfl
  have hres : regAt depth off ≠ .reserved := fun h => by simp [h, Reg.offset] at hreg
  exact hk (Option.some.inj ((offset_regAt h4 hres).symm.trans hreg))

@[simp] theorem resetEngine_statusWord (s : State) : (resetEngine s).statusWord = 0 := by
  simp [State.statusWord, State.reset]

@[simp] theorem resetEngine_irq (s : State) : (resetEngine s).irq = false := by
  simp [State.irq]

/-- After a reset only the identity registers read a value other than 0 (R270). -/
theorem regValue_resetEngine (hid : reg ≠ .id) (hver : reg ≠ .version) (hcap : reg ≠ .cap) : (resetEngine s).regValue reg = 0 := by
  cases reg with
  | id => exact absurd rfl hid
  | version => exact absurd rfl hver
  | cap => exact absurd rfl hcap
  | status => exact resetEngine_statusWord s
  | cfgr => exact show (⟨0, false, false⟩ : Cfgr).toWord = 0 by decide
  | _ => rfl

/-- Settles O40: the reset turn answers the reset state, whose registers other than ID, VERSION and CAP all read 0. -/
theorem resetClearsEverything : Obligations.ResetClearsEverything := by
  intro s ts hts _
  refine ⟨_, step_of_turns_cons hts, rfl, rfl, rfl, rfl, resetEngine_irq _, rfl, zeroKey_bytes,
    fun k => Vector.getElem_replicate k.isLt, fun _ => rfl, fun off h4 => ?_⟩
  split_ifs with hid hver hcap
  · subst hid; rfl
  · subst hver; rfl
  · subst hcap; rfl
  · exact regValue_resetEngine (regAt_ne_of_offset h4 rfl hid) (regAt_ne_of_offset h4 rfl hver) (regAt_ne_of_offset h4 rfl hcap)

/-! ## A command in flight (R282) -/

/-- With a command in flight the next turn is the engine's, unless the schedule gives it to another agent (log 6). -/
theorem whose_engine (hb : s.status.busy = true) (hf : s.status.fatal = false)
    (ht : s.turns = [] ∨ ∃ ts, s.turns = .engine :: ts) : s.whose = .engine := by
  rcases ht with ht | ⟨ts, ht⟩
  · simp [State.whose, ht, defaultTurn, hb, hf]
  · simp [State.whose, ht]

/-- Settles O41: the turn is the engine's, and the completion of a command other than NOP ends it without touching the host's accesses. -/
theorem commandInFlightCompletes : Obligations.CommandInFlightCompletes := by
  intro s hs hb ht
  obtain ⟨hword, hcmd⟩ := hs.inFlight hb
  have hs' : ({ s with turns := s.turns.tail } : State).Inv := { hs with }
  obtain ⟨t, he, hidle, -, hend, -⟩ := everyCommandCompletes (decode s.snap.word) _ (hword ▸ hcmd) hs'
  have hstep : step s = .next t := by
    rw [step_eq, whose_engine hb hs.notFatal ht, runTurn]
    exact (engineTurn_running (s := { s with turns := s.turns.tail }) hb hs.notFatal).trans he
  obtain ⟨hhost, -⟩ := exec_host_turns he
  exact ⟨t, hstep, hidle, hend, hhost⟩

end Sys2Proof.Machine
